-- ==== Sys2Proof/Word.lean ====
section
/-! DEFINITION. The word types of the machine: what the spec treats as bits is a bit vector (10_state R10, R12, R14), an
index into a fixed set is a Fin (R10 registers, R19 keys). -/

namespace Sys2Proof

/-- A byte: a general register, a timer, a memory cell (10_state R10, R16, R20). -/
abbrev Byte := BitVec 8

/-- A 16-bit word: an instruction word, `pc`, `I`, a stack entry (10_state R12, R14, R15; 30_encoding R51). -/
abbrev Word := BitVec 16

/-- The number of a general register, `V0` to `VF` (10_state R10). -/
abbrev Reg := Fin 16

/-- The number of a key, 0 to 15 (10_state R19). -/
abbrev Key := Fin 16

/-- A value of at most 16 bits as a word: every widening of the machine is a zero extension (00_scope R8, `zext_16`). -/
def zext16 {w : Nat} (v : BitVec w) : Word := v.setWidth 16

end Sys2Proof
end

