-- ==== Sys2Proof/Syntax.lean ====
section
/-! DEFINITION. The instructions: one constructor per row of spec/opcode_table.json, in the table's order, with the
operands the decoder of 30_encoding R56 gives them (not-examined nibbles are no operands, R57). -/

namespace Sys2Proof

/-- An instruction with its decoded operands (30_encoding R52, R55, R56). -/
inductive Instr where
  /-- `00E0` CLS (R121) -/
  | cls
  /-- `00EE` RET (R71) -/
  | ret
  /-- `0nnn` SYS addr (R70) -/
  | sys (nnn : BitVec 12)
  /-- `1nnn` JP addr (R72) -/
  | jp (nnn : BitVec 12)
  /-- `2nnn` CALL addr (R73) -/
  | call (nnn : BitVec 12)
  /-- `3xkk` SE Vx, kk (R74) -/
  | seImm (x : Reg) (kk : Byte)
  /-- `4xkk` SNE Vx, kk (R75) -/
  | sneImm (x : Reg) (kk : Byte)
  /-- `5xy?` SE Vx, Vy (R76) -/
  | seReg (x y : Reg)
  /-- `6xkk` LD Vx, kk (R91) -/
  | ldImm (x : Reg) (kk : Byte)
  /-- `7xkk` ADD Vx, kk (R92) -/
  | addImm (x : Reg) (kk : Byte)
  /-- `8xy0` LD Vx, Vy (R93) -/
  | ldReg (x y : Reg)
  /-- `8xy1` OR Vx, Vy (R94) -/
  | orReg (x y : Reg)
  /-- `8xy2` AND Vx, Vy (R95) -/
  | andReg (x y : Reg)
  /-- `8xy3` XOR Vx, Vy (R96) -/
  | xorReg (x y : Reg)
  /-- `8xy4` ADD Vx, Vy (R97) -/
  | addReg (x y : Reg)
  /-- `8xy5` SUB Vx, Vy (R98) -/
  | sub (x y : Reg)
  /-- `8x?6` SHR Vx (R99) -/
  | shr (x : Reg)
  /-- `8xy7` SUBN Vx, Vy (R100) -/
  | subn (x y : Reg)
  /-- `8x?E` SHL Vx (R101) -/
  | shl (x : Reg)
  /-- `9xy?` SNE Vx, Vy (R77) -/
  | sneReg (x y : Reg)
  /-- `Annn` LD I, addr (R111) -/
  | ldI (nnn : BitVec 12)
  /-- `Bnnn` JP V0, addr (R79) -/
  | jpV0 (nnn : BitVec 12)
  /-- `Cxkk` RND Vx, kk (R102) -/
  | rnd (x : Reg) (kk : Byte)
  /-- `Dxyn` DRW Vx, Vy, n (R122) -/
  | drw (x y : Reg) (n : BitVec 4)
  /-- `Ex9E` SKP Vx (R131) -/
  | skp (x : Reg)
  /-- `ExA1` SKNP Vx (R132) -/
  | sknp (x : Reg)
  /-- `Fx07` LD Vx, DT (R133) -/
  | ldVxDt (x : Reg)
  /-- `Fx0A` LD Vx, K (R134) -/
  | ldVxK (x : Reg)
  /-- `Fx15` LD DT, Vx (R135) -/
  | ldDtVx (x : Reg)
  /-- `Fx18` LD ST, Vx (R136) -/
  | ldStVx (x : Reg)
  /-- `Fx1E` ADD I, Vx (R112) -/
  | addI (x : Reg)
  /-- `Fx29` LD F, Vx (R113) -/
  | ldF (x : Reg)
  /-- `Fx33` LD B, Vx (R114) -/
  | ldB (x : Reg)
  /-- `Fx55` LD [I], Vx (R115) -/
  | ldMemVx (x : Reg)
  /-- `Fx65` LD Vx, [I] (R116) -/
  | ldVxMem (x : Reg)
  deriving DecidableEq, Repr

end Sys2Proof
end

