-- ==== Sys2Proof/Decode.lean ====
section
/-! DEFINITION. The decoder of 30_encoding R56, total on every word, and the encoder written from the opcode map of R55.
The group numbers and selector values are the customary CHIP-8 map the spec adopts (92_eei D24; log row 14). -/

namespace Sys2Proof

/-- Why the decoder gives no instruction (30_encoding R60). -/
inductive DecodeReject where
  /-- no pattern matches: the word's selector is unknown in its group; it carries the word (60_exceptions R141) -/
  | unrecognizedOpcode (op : Word)
  /-- fewer than the two bytes every instruction has (30_encoding R51) were given; never met by a fetch -/
  | tooFewBytes
  deriving DecidableEq, Repr

/-! ## The operand fields (30_encoding R52) -/

/-- `op[15:12]` -/
def opGroup (op : Word) : BitVec 4 := op.extractLsb' 12 4
/-- `x = op[11:8]` -/
def opX (op : Word) : Reg := (op.extractLsb' 8 4).toFin
/-- `y = op[7:4]` -/
def opY (op : Word) : Reg := (op.extractLsb' 4 4).toFin
/-- `n = op[3:0]` -/
def opN (op : Word) : BitVec 4 := op.extractLsb' 0 4
/-- `kk = op[7:0]` -/
def opKK (op : Word) : Byte := op.extractLsb' 0 8
/-- `nnn = op[11:0]` -/
def opNNN (op : Word) : BitVec 12 := op.extractLsb' 0 12

/-- Group 0 matches the whole word (30_encoding R54, R61, D7). -/
def decodeGroup0 (op : Word) : Instr :=
  if op = 0x00E0#16 then .cls
  else if op = 0x00EE#16 then .ret
  else .sys (opNNN op)

/-- Group 8 dispatches on the low nibble (30_encoding R54, R56). -/
def decodeGroup8 (op : Word) : Except DecodeReject Instr :=
  match (opN op).toNat with
  | 0x0 => .ok (.ldReg (opX op) (opY op))
  | 0x1 => .ok (.orReg (opX op) (opY op))
  | 0x2 => .ok (.andReg (opX op) (opY op))
  | 0x3 => .ok (.xorReg (opX op) (opY op))
  | 0x4 => .ok (.addReg (opX op) (opY op))
  | 0x5 => .ok (.sub (opX op) (opY op))
  | 0x6 => .ok (.shr (opX op))
  | 0x7 => .ok (.subn (opX op) (opY op))
  | 0xE => .ok (.shl (opX op))
  | _ => .error (.unrecognizedOpcode op)

/-- Group E dispatches on the low byte (30_encoding R54, R56). -/
def decodeGroupE (op : Word) : Except DecodeReject Instr :=
  if opKK op = 0x9E#8 then .ok (.skp (opX op))
  else if opKK op = 0xA1#8 then .ok (.sknp (opX op))
  else .error (.unrecognizedOpcode op)

/-- Group F dispatches on the low byte (30_encoding R54, R56). -/
def decodeGroupF (op : Word) : Except DecodeReject Instr :=
  if opKK op = 0x07#8 then .ok (.ldVxDt (opX op))
  else if opKK op = 0x0A#8 then .ok (.ldVxK (opX op))
  else if opKK op = 0x15#8 then .ok (.ldDtVx (opX op))
  else if opKK op = 0x18#8 then .ok (.ldStVx (opX op))
  else if opKK op = 0x1E#8 then .ok (.addI (opX op))
  else if opKK op = 0x29#8 then .ok (.ldF (opX op))
  else if opKK op = 0x33#8 then .ok (.ldB (opX op))
  else if opKK op = 0x55#8 then .ok (.ldMemVx (opX op))
  else if opKK op = 0x65#8 then .ok (.ldVxMem (opX op))
  else .error (.unrecognizedOpcode op)

/-- `Decode(op)` of 30_encoding R56: it reads nothing but the word. -/
def decode (op : Word) : Except DecodeReject Instr :=
  match (opGroup op).toNat with
  | 0x0 => .ok (decodeGroup0 op)
  | 0x1 => .ok (.jp (opNNN op))
  | 0x2 => .ok (.call (opNNN op))
  | 0x3 => .ok (.seImm (opX op) (opKK op))
  | 0x4 => .ok (.sneImm (opX op) (opKK op))
  | 0x5 => .ok (.seReg (opX op) (opY op))
  | 0x6 => .ok (.ldImm (opX op) (opKK op))
  | 0x7 => .ok (.addImm (opX op) (opKK op))
  | 0x8 => decodeGroup8 op
  | 0x9 => .ok (.sneReg (opX op) (opY op))
  | 0xA => .ok (.ldI (opNNN op))
  | 0xB => .ok (.jpV0 (opNNN op))
  | 0xC => .ok (.rnd (opX op) (opKK op))
  | 0xD => .ok (.drw (opX op) (opY op) (opN op))
  | 0xE => decodeGroupE op
  | 0xF => decodeGroupF op
  | _ => .error (.unrecognizedOpcode op)

/-! ## Byte order (20_memory R32): the byte at the lower address is `op[15:8]` -/

/-- The word of two consecutive bytes, the first at the lower address. -/
def wordOfBytes (hi lo : Byte) : Word := hi ++ lo

/-- The byte at the lower address. -/
def highByte (op : Word) : Byte := op.extractLsb' 8 8

/-- The byte at the higher address. -/
def lowByte (op : Word) : Byte := op.extractLsb' 0 8

/-- Decode the instruction at the head of a byte sequence, and what follows it (30_encoding R51: always two bytes). -/
def decodeBytes : List Byte → Except DecodeReject (Instr × List Byte)
  | hi :: lo :: rest =>
    match decode (wordOfBytes hi lo) with
    | .ok i => .ok (i, rest)
    | .error e => .error e
  | [_] => .error .tooFewBytes
  | [] => .error .tooFewBytes

/-- What the decoder reads from an instruction whose bits are `w`, numbered as spec/opcode_table.json numbers them: bits at
and above `nbits` are 0, the word lies in memory high byte first (20_memory R32). -/
def decodeTableWord (nbits w : Nat) : Option Instr :=
  let op : Word := BitVec.ofNat 16 (w % 2 ^ nbits)
  match decodeBytes [highByte op, lowByte op] with
  | .ok (i, _) => some i
  | .error _ => none

/-! ## The encoder, from the opcode map of 30_encoding R55. A not-examined nibble (R57) is written 0. -/

/-- Format `NNN`: group, `nnn` (30_encoding R53). -/
def packNNN (g : BitVec 4) (nnn : BitVec 12) : Word := g ++ nnn

/-- Formats `XKK` and `XSS`: group, `x`, `kk` or the selector (30_encoding R53). -/
def packXKK (g : BitVec 4) (x : Reg) (kk : Byte) : Word := g ++ (BitVec.ofFin x ++ kk : BitVec 12)

/-- Formats `XY`, `XYS` and `XYN`: group, `x`, `y`, and the low nibble (30_encoding R53). -/
def packXYN (g : BitVec 4) (x y : Reg) (n : BitVec 4) : Word :=
  g ++ (BitVec.ofFin x ++ (BitVec.ofFin y ++ n : BitVec 8) : BitVec 12)

/-- The word of an instruction (30_encoding R55). -/
def encode : Instr → Word
  | .cls => 0x00E0#16
  | .ret => 0x00EE#16
  | .sys nnn => packNNN 0x0#4 nnn
  | .jp nnn => packNNN 0x1#4 nnn
  | .call nnn => packNNN 0x2#4 nnn
  | .seImm x kk => packXKK 0x3#4 x kk
  | .sneImm x kk => packXKK 0x4#4 x kk
  | .seReg x y => packXYN 0x5#4 x y 0x0#4
  | .ldImm x kk => packXKK 0x6#4 x kk
  | .addImm x kk => packXKK 0x7#4 x kk
  | .ldReg x y => packXYN 0x8#4 x y 0x0#4
  | .orReg x y => packXYN 0x8#4 x y 0x1#4
  | .andReg x y => packXYN 0x8#4 x y 0x2#4
  | .xorReg x y => packXYN 0x8#4 x y 0x3#4
  | .addReg x y => packXYN 0x8#4 x y 0x4#4
  | .sub x y => packXYN 0x8#4 x y 0x5#4
  | .shr x => packXYN 0x8#4 x 0 0x6#4
  | .subn x y => packXYN 0x8#4 x y 0x7#4
  | .shl x => packXYN 0x8#4 x 0 0xE#4
  | .sneReg x y => packXYN 0x9#4 x y 0x0#4
  | .ldI nnn => packNNN 0xA#4 nnn
  | .jpV0 nnn => packNNN 0xB#4 nnn
  | .rnd x kk => packXKK 0xC#4 x kk
  | .drw x y n => packXYN 0xD#4 x y n
  | .skp x => packXKK 0xE#4 x 0x9E#8
  | .sknp x => packXKK 0xE#4 x 0xA1#8
  | .ldVxDt x => packXKK 0xF#4 x 0x07#8
  | .ldVxK x => packXKK 0xF#4 x 0x0A#8
  | .ldDtVx x => packXKK 0xF#4 x 0x15#8
  | .ldStVx x => packXKK 0xF#4 x 0x18#8
  | .addI x => packXKK 0xF#4 x 0x1E#8
  | .ldF x => packXKK 0xF#4 x 0x29#8
  | .ldB x => packXKK 0xF#4 x 0x33#8
  | .ldMemVx x => packXKK 0xF#4 x 0x55#8
  | .ldVxMem x => packXKK 0xF#4 x 0x65#8

/-- The bytes of an instruction as memory holds them, lowest address first (20_memory R32). -/
def encodeBytes (i : Instr) : List Byte := [highByte (encode i), lowByte (encode i)]

end Sys2Proof
end

