-- ==== Sys2Proof/Config.lean ====
section
/-! DEFINITION. What an implementation fixes (00_scope R4) and the values the spec leaves free. The parameters are a field
of State that no event changes, so that a statement over every state is a statement over every parameter (log row 1);
their default values stand in Machine/Defaults.lean. -/

namespace Sys2Proof

/-- `KEY_SELECT` (00_scope R4, 44_keypad_timers R134, 92_eei D9): which held key `LD Vx, K` returns. -/
inductive KeySelect where
  /-- the lowest-numbered held key, the default -/
  | lowest
  /-- a free choice among the held keys -/
  | any
  deriving DecidableEq, Repr

/-- `SYS_BEHAVIOUR` (40_control_transfer R70, 92_eei D3): what executing `SYS addr` does. -/
inductive SysBehaviour where
  /-- `UnrecognizedOpcode(op)`, the default and the behaviour of this hardware -/
  | fault
  /-- only `next` -/
  | nop
  /-- `pc <- nnn` -/
  | jump
  deriving DecidableEq, Repr

/-- The open implementation parameters of 00_scope R4 (and D3's `SYS_BEHAVIOUR`), which a model takes as arguments. -/
structure Params where
  /-- `STACK_DEPTH`: the most entries the call stack holds, `none` = unbounded (10_state R15, D6) -/
  stackDepth : Option Nat
  /-- `KEY_SELECT` (D9) -/
  keySelect : KeySelect
  /-- `SYS_BEHAVIOUR` (D3) -/
  sysBehaviour : SysBehaviour
  /-- `FONT[0..79]`: the 80 glyph bytes reset writes at 0x000 to 0x04F (10_state R21, D17) -/
  font : Vector Byte 80
  deriving DecidableEq, Repr

/-- `rnd` (41_load_alu R102, D10): the byte the n-th free draw of a run gives. FREE VALUE: no body, so nothing is known of
it and a statement holds for every generator (log row 6). -/
opaque Config.rnd : Nat → Byte

/-- The free choice of `KEY_SELECT = any` (44_keypad_timers R134, D9): a number whose remainder by the number of held keys
picks one of them. FREE VALUE: no body (log row 3). -/
opaque Config.keyPick : Nat → Nat

end Sys2Proof
end

