-- ==== Sys2Proof/Machine/Defaults.lean ====
section
/-! DEFINITION. The fixed entry address and the default values of the open implementation parameters, as the spec states
them (00_scope R4). -/

namespace Sys2Proof.Machine

/-- `ENTRY`, fixed: the reset value of `pc` and the default load address (00_scope R4, 20_memory R35, R42). -/
def entry : Word := 0x0200#16

/-- The default `FONT[0..79]`: the table of 10_state R21, which the spec supplies from general knowledge (log row 4). -/
def defaultFont : Vector Byte 80 := #v[
  0xF0, 0x90, 0x90, 0x90, 0xF0,  0x20, 0x60, 0x20, 0x20, 0x70,
  0xF0, 0x10, 0xF0, 0x80, 0xF0,  0xF0, 0x10, 0xF0, 0x10, 0xF0,
  0x90, 0x90, 0xF0, 0x10, 0x10,  0xF0, 0x80, 0xF0, 0x10, 0xF0,
  0xF0, 0x80, 0xF0, 0x90, 0xF0,  0xF0, 0x10, 0x20, 0x40, 0x40,
  0xF0, 0x90, 0xF0, 0x90, 0xF0,  0xF0, 0x90, 0xF0, 0x10, 0xF0,
  0xF0, 0x90, 0xF0, 0x90, 0x90,  0xE0, 0x90, 0xE0, 0x90, 0xE0,
  0xF0, 0x80, 0x80, 0x80, 0xF0,  0xE0, 0x90, 0x90, 0x90, 0xE0,
  0xF0, 0x80, 0xF0, 0x80, 0xF0,  0xF0, 0x80, 0xF0, 0x80, 0x80]

/-- The default parameters: `STACK_DEPTH` 16 (D6), `KEY_SELECT` lowest (D9), `SYS_BEHAVIOUR` fault (D3), the default font
(D17). Log rows 2 to 5. -/
def defaultParams : Params :=
  { stackDepth := some 16, keySelect := .lowest, sysBehaviour := .fault, font := defaultFont }

end Sys2Proof.Machine
end

