-- ==== Sys2Proof/Machine/State.lean ====
section
/-! DEFINITION. The state of the machine, everything 10_state.md gives it, as plain data; the four faults of
60_exceptions.md; the refusals; and the state after a reset with no options (10_state R25). -/

namespace Sys2Proof.Machine

/-- The faults a `Step` can end in: exactly four causes (60_exceptions R140). Each is precise: no state changes (R147). -/
inductive Fault where
  /-- Code 1 (60_exceptions R141). Raised by fetch-and-decode for a word no pattern matches, and by the meaning of `SYS`
  under `SYS_BEHAVIOUR = fault`; it carries the word. SAFE: the spec's own fault; for `SYS` the model stops where another
  build may go on (D3). -/
  | unrecognizedOpcode (op : Word)
  /-- Code 2 (60_exceptions R142). Raised by `RET` with an empty stack. SAFE: the spec's own fault. -/
  | stackUnderflow
  /-- Code 3 (60_exceptions R143). Raised by fetch, `DRW`, `LD B`, `LD [I]`, `LD Vx,[I]` when a byte of their range lies
  above 0xFFF; it carries the lowest such address. SAFE: the spec's decision D5 errs toward unprovable. -/
  | addressOutOfRange (addr : Nat)
  /-- Code 4 (60_exceptions R144). Raised by `CALL` with `SP = STACK_DEPTH`. SAFE: decision D6 errs toward unprovable. -/
  | stackOverflow
  deriving DecidableEq, Repr

/-- What the model has no move for. -/
inductive Refusal where
  /-- An arm of `exec` whose instruction has no meaning yet. SAFE: nothing is proved of it. No arm raises it now. -/
  | notModelled (mnemonic : String)
  /-- Raised by the host event `Load` past the end of memory (20_memory R43, D19, U3: no move). UNSAFE only for a host
  that breaks its duty, as the spec says. -/
  | loadBeyondMemory
  /-- Raised by the host event `Reset` with an override outside its field's range (70_reset R161, D22, U11: no move).
  SAFE: it refuses ill-typed launches. -/
  | resetOptionOutOfRange
  deriving DecidableEq, Repr

/-- Main memory: the cells that differ from what an unlisted address reads as, in rising address order (log row 10). -/
abbrev Memory := List Host.Cell

/-- The framebuffer, row-major, 32 rows of 64 pixels: bit `x` of row `y` is `FB[y*64 + x]`, 1 = on (10_state R22). -/
abbrev Framebuffer := Vector (BitVec 64) 32

/-- The state of the core (10_state.md), with the parameters of the machine and the model's two counters. -/
structure State where
  /-- `V[0]` to `V[15]` (10_state R10); `V[15]` is `VF` (R11) -/
  v : Vector Byte 16
  /-- the program counter (10_state R12) -/
  pc : Word
  /-- the index register `I` (10_state R14) -/
  i : Word
  /-- the call stack, oldest entry first; `SP` is its length (10_state R15) -/
  stack : List Word
  /-- the delay timer `DT` (10_state R16) -/
  dt : Byte
  /-- the sound timer `ST` (10_state R17) -/
  st : Byte
  /-- main memory (10_state R20) -/
  mem : Memory
  /-- the framebuffer (10_state R22) -/
  fb : Framebuffer
  /-- the keypad: bit `k` is `K[k]` (10_state R19 "sixteen bits") -/
  keys : BitVec 16
  /-- the implementation parameters (00_scope R4), changed by no event (log row 1) -/
  params : Params
  /-- MODEL'S OWN: how many free values have been consumed (log rows 6, 7) -/
  draws : Nat
  /-- MODEL'S OWN: how many `Beep` events the core has emitted (10_state R24, log row 8) -/
  beeps : Nat
  deriving DecidableEq, Repr

/-- The machine right after `Reset` with no options (10_state R25): memory lists nothing, so it reads as the font and
zeros (log row 10). `pc` is the source's value; the other zeros are the spec's decision D1 (log row 9). -/
def State.reset : State :=
  { v := Vector.replicate 16 0x00#8
    pc := entry
    i := 0x0000#16
    stack := []
    dt := 0x00#8
    st := 0x00#8
    mem := []
    fb := Vector.replicate 32 0#64
    keys := 0#16
    params := defaultParams
    draws := 0
    beeps := 0 }

end Sys2Proof.Machine
end

