-- ==== Sys2Proof/Machine/Ops.lean ====
section
/-! DEFINITION. The named operations over the state: registers, program counter, stack, memory, raising a fault. Every
read and write of a meaning goes through them. -/

namespace Sys2Proof.Machine

/-! ## General registers (10_state R10, R11) -/

/-- `VF`, the number of the flag register (10_state R11). -/
def vf : Reg := 15

/-- `V[x]` -/
def State.reg (s : State) (x : Reg) : Byte := s.v[x]

/-- `V[x] <- b` -/
def State.setReg (s : State) (x : Reg) (b : Byte) : State := { s with v := s.v.set x b }

/-- Write every register at once: `V[r] <- f r` for each `r`. -/
def State.setRegs (s : State) (f : Reg → Byte) : State := { s with v := Vector.ofFn f }

/-! ## Program counter (10_state R12, R13; 00_scope R8) -/

/-- `pc <- target` -/
def State.setPc (s : State) (target : Word) : State := { s with pc := target }

/-- `next`: `pc <- (pc + 2) mod 65536` -/
def State.advance (s : State) : State := s.setPc (s.pc + 2#16)

/-- `skip`: `pc <- (pc + 4) mod 65536` -/
def State.skip (s : State) : State := s.setPc (s.pc + 4#16)

/-- `if c then skip else next` (40_control_transfer R74 to R78) -/
def State.skipIf (s : State) (c : Bool) : State := if c then s.skip else s.advance

/-! ## Index register, timers, stack, framebuffer -/

/-- `I <- w` (10_state R14) -/
def State.setI (s : State) (w : Word) : State := { s with i := w }

/-- `DT <- b` (10_state R16) -/
def State.setDt (s : State) (b : Byte) : State := { s with dt := b }

/-- `ST <- b` (10_state R17): only `Tick` and `Reset` use it. -/
def State.setSt (s : State) (b : Byte) : State := { s with st := b }

/-- Replace the call stack (10_state R15). -/
def State.setStack (s : State) (es : List Word) : State := { s with stack := es }

/-- Replace the framebuffer (10_state R22). -/
def State.setFb (s : State) (fb : Framebuffer) : State := { s with fb := fb }

/-- Replace the keypad state (10_state R19): only host events use it. -/
def State.setKeys (s : State) (ks : BitVec 16) : State := { s with keys := ks }

/-- `SP = STACK_DEPTH`; never with an unbounded stack (40_control_transfer R73). -/
def State.stackFull (s : State) : Bool := s.params.stackDepth == some s.stack.length

/-- The pixel in column `px mod 64` of row `py mod 32`, on or off: coordinates wrap (10_state R22, 43_display R120). -/
def Framebuffer.pixel (fb : Framebuffer) (px py : Nat) : Bool := fb[Fin.ofNat 32 py].getLsbD (px % 64)

/-- The framebuffer with that pixel inverted. -/
def Framebuffer.flip (fb : Framebuffer) (px py : Nat) : Framebuffer :=
  fb.set (Fin.ofNat 32 py) (fb[Fin.ofNat 32 py] ^^^ BitVec.twoPow 64 (px % 64))

/-- `FB[p]`, `p = y*64 + x` (00_scope R8, 10_state R22). -/
def State.pixel (s : State) (p : Nat) : Bool := Framebuffer.pixel s.fb (p % 64) (p / 64)

/-! ## Outputs and free values (10_state R24) -/

/-- `emit Beep` (44_keypad_timers R136) -/
def State.emitBeep (s : State) : State := { s with beeps := s.beeps + 1 }

/-- One free value has been consumed. -/
def State.countDraw (s : State) : State := { s with draws := s.draws + 1 }

/-! ## Raising a fault (60_exceptions R140 to R147) -/

/-- `raise F(info)`: the step ends in `Fault(F, info)`. That is the whole of taking an exception on this machine: no state
changes, control goes nowhere, there is no handler and no return (60_exceptions R147). -/
def raise (f : Fault) : Host.Outcome State Fault Refusal := .fault f

/-- `Ok` with the new state, or the fault a shared operation met. -/
def finish (r : Except Fault State) : Host.Outcome State Fault Refusal :=
  match r with
  | .ok s => .next s
  | .error f => raise f

/-- The numeric cause code of a fault; 0 means no fault (60_exceptions R145). -/
def faultCode : Option Fault → Nat
  | none => 0
  | some (.unrecognizedOpcode _) => 1
  | some .stackUnderflow => 2
  | some (.addressOutOfRange _) => 3
  | some .stackOverflow => 4

/-- The info a fault records: the word, the address, or nothing (60_exceptions R145). -/
def faultInfo : Fault → Option Nat
  | .unrecognizedOpcode op => some op.toNat
  | .stackUnderflow => none
  | .addressOutOfRange addr => some addr
  | .stackOverflow => none

/-! ## Main memory (20_memory R30 to R35) -/

/-- The highest legal address, 0xFFF (20_memory R31). -/
def maxAddr : Nat := 0xFFF

/-- What an address no write has changed reads as: the reset contents, `FONT[0..79]` at 0x000 to 0x04F and 0x00 elsewhere
(10_state R20, R25; 70_reset R162). -/
def unlisted (font : Vector Byte 80) (a : Nat) : Byte := if h : a < 80 then font[a] else 0x00#8

/-- The byte of a memory at an address. -/
def Memory.read (font : Vector Byte 80) : Memory → Nat → Byte
  | [], a => unlisted font a
  | (k, b) :: m, a => if a = k then b else Memory.read font m a

/-- The memory without a cell at the address. -/
def Memory.erase (m : Memory) (a : Nat) : Memory := m.filter (fun c => c.1 != a)

/-- The memory with a cell put in before the first cell of a higher address. -/
def Memory.insert : Memory → Nat → Byte → Memory
  | [], a, b => [(a, b)]
  | (k, c) :: m, a, b => if a < k then (a, b) :: (k, c) :: m else (k, c) :: Memory.insert m a b

/-- Write one byte, keeping the canonical form: a value an unlisted address reads as is not listed. -/
def Memory.write (font : Vector Byte 80) (m : Memory) (a : Nat) (b : Byte) : Memory :=
  if b = unlisted font a then m.erase a else (m.erase a).insert a b

/-- The canonical form: addresses strictly rising, all within memory, no cell equal to what its address reads as unlisted. -/
abbrev Memory.wf (font : Vector Byte 80) (m : Memory) : Prop :=
  m.Pairwise (fun c d => c.1 < d.1) ∧ ∀ c ∈ m, c.1 ≤ maxAddr ∧ c.2 ≠ unlisted font c.1

/-- The byte of main memory at an address within 0x000 to 0xFFF. -/
def State.byte (s : State) (a : Nat) : Byte := Memory.read s.params.font s.mem a

/-- Write one byte of main memory. -/
def State.setByte (s : State) (a : Nat) (b : Byte) : State := { s with mem := Memory.write s.params.font s.mem a b }

/-- The range check of 20_memory R31 over the `n` addresses from `base` up: the fault with the lowest offending address,
if any lies above 0xFFF. An empty range cannot fault. -/
def rangeFault (base n : Nat) : Option Fault :=
  if 0 < n ∧ maxAddr < base + (n - 1) then some (.addressOutOfRange (max base (maxAddr + 1))) else none

/-- The `n` bytes from `base` up, ascending. -/
def State.bytes (s : State) (base n : Nat) : List Byte := (List.range n).map (fun j => s.byte (base + j))

/-- Write bytes at ascending addresses from `base` up. -/
def State.setBytes (s : State) (base : Nat) : List Byte → State
  | [] => s
  | b :: bs => (s.setByte base b).setBytes (base + 1) bs

/-- Read `n` bytes of main memory from `base` up: the whole range is checked first (20_memory R31, R34). -/
def loadBlock (s : State) (base n : Nat) : Except Fault (List Byte) :=
  match rangeFault base n with
  | some f => .error f
  | none => .ok (s.bytes base n)

/-- Write bytes of main memory from `base` up: the whole range is checked before anything is written (20_memory R31). -/
def storeBlock (s : State) (base : Nat) (bs : List Byte) : Except Fault State :=
  match rangeFault base bs.length with
  | some f => .error f
  | none => .ok (s.setBytes base bs)

end Sys2Proof.Machine
end

