-- ==== Sys2Proof/Machine/Flags.lean ====
section
/-! DEFINITION. The values `VF` receives as a flag: 0x00 or 0x01 (10_state R11). -/

namespace Sys2Proof.Machine

/-- A condition as the byte a flag-writing instruction stores (10_state R11). -/
def flagByte (c : Bool) : Byte := if c then 0x01#8 else 0x00#8

/-- Carry out of `ADD Vx, Vy`: 1 if the sum exceeds 255 (41_load_alu R97). -/
def carryFlag (a b : Byte) : Byte := flagByte (decide (255 < a.toNat + b.toNat))

/-- The flag of `SUB` and `SUBN`: strictly greater, not "no borrow" (41_load_alu R90, R98, R100). -/
def greaterFlag (a b : Byte) : Byte := flagByte (decide (b.toNat < a.toNat))

/-- The bit `SHR` shifts out: bit 0 before the shift (41_load_alu R99). -/
def lsbFlag (a : Byte) : Byte := a &&& 0x01#8

/-- The bit `SHL` shifts out: bit 7 before the shift (41_load_alu R101). -/
def msbFlag (a : Byte) : Byte := (a >>> 7) &&& 0x01#8

end Sys2Proof.Machine
end

