-- ==== Sys2Proof/Machine/Operands.lean ====
section
/-! DEFINITION. The operand forms: the one addressing mode, the fixed operands `B`, `F`, `[I]`, `K`, and the jump target
of `JP V0, addr`. -/

namespace Sys2Proof.Machine

/-- The base of every data access: the natural number `I`, no truncation (42_index_memory R110). -/
def State.base (s : State) : Nat := s.i.toNat

/-- The operand of `LD B, Vx`: hundreds, tens, ones of a byte (42_index_memory R114). -/
def decimalDigits (b : Byte) : List Byte :=
  [BitVec.ofNat 8 (b.toNat / 100), BitVec.ofNat 8 (b.toNat / 10 % 10), BitVec.ofNat 8 (b.toNat % 10)]

/-- The operand of `LD F, Vx`: the address `Vx * 5` of a glyph; the whole byte is multiplied (42_index_memory R113). -/
def glyphAddr (b : Byte) : Word := zext16 b * 5#16

/-- The registers `V0` to `Vx` in order, the operand of `LD [I], Vx` (42_index_memory R115). -/
def State.regsUpTo (s : State) (x : Reg) : List Byte := s.v.toList.take (x.val + 1)

/-- `V[j] <- bs[j]` for each `j` the list has, the other registers as they are (42_index_memory R116). -/
def State.loadRegs (s : State) (bs : List Byte) : State :=
  s.setRegs (fun r => bs.getD r.val (s.reg r))

/-- The target of `JP V0, addr`: `V[0] + nnn` in 16 bits, not reduced modulo 4096 (40_control_transfer R79). -/
def State.offsetTarget (s : State) (nnn : BitVec 12) : Word := zext16 (s.reg 0) + zext16 nnn

/-- `Pressed(v) = (v <= 15 and K[v] = 1)` (44_keypad_timers R130). -/
def State.pressed (s : State) (b : Byte) : Bool := decide (b.toNat ≤ 15) && s.keys.getLsbD b.toNat

/-- The held keys in rising order: the set `{k : K[k] = 1}` (10_state R19). -/
def State.heldKeys (s : State) : List Key := (List.finRange 16).filter (fun k => s.keys.getLsbD k.val)

/-- A key's number as a register value (44_keypad_timers R134). -/
def keyByte (k : Key) : Byte := BitVec.ofNat 8 k.val

end Sys2Proof.Machine
end

