-- ==== Sys2Proof/Machine/Control.lean ====
section
/-! DEFINITION. Control transfer (40_control_transfer.md): SYS, RET, JP, CALL, SE, SNE, JP V0. -/

namespace Sys2Proof.Machine

/-- `SYS addr` (40_control_transfer R70): this hardware raises `UnrecognizedOpcode(op)`, `op` the whole word `0nnn`;
`SYS_BEHAVIOUR` gives the two alternatives R70 and D3 name (log row 5). -/
def execSys (nnn : BitVec 12) (s : State) : Host.Outcome State Fault Refusal :=
  match s.params.sysBehaviour with
  | .fault => raise (.unrecognizedOpcode (packNNN 0x0#4 nnn))
  | .nop => .next s.advance
  | .jump => .next (s.setPc (zext16 nnn))

/-- `RET` (40_control_transfer R71): the popped entry is used as it is. -/
def execRet (s : State) : Host.Outcome State Fault Refusal :=
  match s.stack.getLast? with
  | none => raise .stackUnderflow
  | some a => .next ((s.setPc a).setStack s.stack.dropLast)

/-- `JP addr` (40_control_transfer R72). -/
def execJp (nnn : BitVec 12) (s : State) : Host.Outcome State Fault Refusal :=
  .next (s.setPc (zext16 nnn))

/-- `CALL addr` (40_control_transfer R73): pushes the address of the word after the `CALL`. -/
def execCall (nnn : BitVec 12) (s : State) : Host.Outcome State Fault Refusal :=
  if s.stackFull then raise .stackOverflow
  else .next ((s.setStack (s.stack ++ [s.pc + 2#16])).setPc (zext16 nnn))

/-- `SE Vx, kk` (40_control_transfer R74). -/
def execSeImm (x : Reg) (kk : Byte) (s : State) : Host.Outcome State Fault Refusal :=
  .next (s.skipIf (s.reg x == kk))

/-- `SNE Vx, kk` (40_control_transfer R75). -/
def execSneImm (x : Reg) (kk : Byte) (s : State) : Host.Outcome State Fault Refusal :=
  .next (s.skipIf (s.reg x != kk))

/-- `SE Vx, Vy` (40_control_transfer R76). -/
def execSeReg (x y : Reg) (s : State) : Host.Outcome State Fault Refusal :=
  .next (s.skipIf (s.reg x == s.reg y))

/-- `SNE Vx, Vy` (40_control_transfer R77). -/
def execSneReg (x y : Reg) (s : State) : Host.Outcome State Fault Refusal :=
  .next (s.skipIf (s.reg x != s.reg y))

/-- `JP V0, addr` (40_control_transfer R79). -/
def execJpV0 (nnn : BitVec 12) (s : State) : Host.Outcome State Fault Refusal :=
  .next (s.setPc (s.offsetTarget nnn))

end Sys2Proof.Machine
end

