-- ==== Sys2Proof/Machine/Display.lean ====
section
/-! DEFINITION. Display instructions (43_display.md): CLS, DRW. -/

namespace Sys2Proof.Machine

/-- What a draw works on: the framebuffer, and whether a pixel was turned off so far (43_display R122). -/
structure Canvas where
  fb : Framebuffer
  hit : Bool
  deriving DecidableEq, Repr

/-- One pixel of the loop of 43_display R122, the target `(px mod 64, py mod 32)`: collision first, then exclusive or. -/
def plot (c : Canvas) (px py : Nat) (bit : Bool) : Canvas :=
  { fb := if bit then Framebuffer.flip c.fb px py else c.fb
    hit := c.hit || (bit && Framebuffer.pixel c.fb px py) }

/-- One row of a sprite, its most significant bit first (43_display R120, R122). -/
def drawRow (c : Canvas) (xs py : Nat) (b : Byte) : Canvas :=
  (List.range 8).foldl (fun c col => plot c (xs + col) py (b.getLsbD (7 - col))) c

/-- The rows of a sprite from row `py` down (43_display R122). -/
def drawRows (c : Canvas) (xs py : Nat) : List Byte → Canvas
  | [] => c
  | b :: bs => drawRows (drawRow c xs py b) xs (py + 1) bs

/-- `CLS` (43_display R121). -/
def execCls (s : State) : Host.Outcome State Fault Refusal :=
  .next (s.setFb (Vector.replicate 32 0#64)).advance

/-- The state a draw of these sprite bytes leaves, `pc` not yet advanced: `VF` cleared, coordinates sampled once after
that, then the loop, then the collision in `VF` (43_display R122, D15; log row 11). -/
def drawSprite (x y : Reg) (rows : List Byte) (s : State) : State :=
  let s₀ := s.setReg vf 0x00#8
  let c := drawRows { fb := s₀.fb, hit := false } (s₀.reg x).toNat (s₀.reg y).toNat rows
  (s₀.setFb c.fb).setReg vf (flagByte c.hit)

/-- `DRW Vx, Vy, n` (43_display R122): the sprite's whole range is checked before `VF` or a pixel is written. -/
def execDrw (x y : Reg) (n : BitVec 4) (s : State) : Host.Outcome State Fault Refusal :=
  finish ((loadBlock s s.base n.toNat).map (fun rows => (drawSprite x y rows s).advance))

end Sys2Proof.Machine
end

