-- ==== Sys2Proof/Machine/IndexMemory.lean ====
section
/-! DEFINITION. Index register and memory instructions (42_index_memory.md). None changes `I` as a side effect of a memory
access (R110). -/

namespace Sys2Proof.Machine

/-- `LD I, addr` (42_index_memory R111). -/
def execLdI (nnn : BitVec 12) (s : State) : Host.Outcome State Fault Refusal :=
  .next (s.setI (zext16 nnn)).advance

/-- `ADD I, Vx` (42_index_memory R112): modulo 65536, no flag. -/
def execAddI (x : Reg) (s : State) : Host.Outcome State Fault Refusal :=
  .next (s.setI (s.i + zext16 (s.reg x))).advance

/-- `LD F, Vx` (42_index_memory R113). -/
def execLdF (x : Reg) (s : State) : Host.Outcome State Fault Refusal :=
  .next (s.setI (glyphAddr (s.reg x))).advance

/-- Store bytes from `I` up, then `next`; `AddressOutOfRange` before anything is written (42_index_memory R110). -/
def storeNext (bs : List Byte) (s : State) : Host.Outcome State Fault Refusal :=
  finish ((storeBlock s s.base bs).map State.advance)

/-- `LD B, Vx` (42_index_memory R114). -/
def execLdB (x : Reg) (s : State) : Host.Outcome State Fault Refusal :=
  storeNext (decimalDigits (s.reg x)) s

/-- `LD [I], Vx` (42_index_memory R115). -/
def execLdMemVx (x : Reg) (s : State) : Host.Outcome State Fault Refusal :=
  storeNext (s.regsUpTo x) s

/-- `LD Vx, [I]` (42_index_memory R116). -/
def execLdVxMem (x : Reg) (s : State) : Host.Outcome State Fault Refusal :=
  finish ((loadBlock s s.base (x.val + 1)).map (fun bs => (s.loadRegs bs).advance))

end Sys2Proof.Machine
end

