-- ==== Sys2Proof/Machine/LoadAlu.lean ====
section
/-! DEFINITION. Register load, arithmetic and logic (41_load_alu.md). The statements of a rule run in the order written,
each reading the state the one before left (41_load_alu R90; log row 11). -/

namespace Sys2Proof.Machine

/-- `V[x] <- b; next`. -/
def writeNext (x : Reg) (b : Byte) (s : State) : Host.Outcome State Fault Refusal :=
  .next (s.setReg x b).advance

/-- `LD Vx, kk` (41_load_alu R91). -/
def execLdImm (x : Reg) (kk : Byte) (s : State) : Host.Outcome State Fault Refusal :=
  writeNext x kk s

/-- `ADD Vx, kk` (41_load_alu R92): no flag. -/
def execAddImm (x : Reg) (kk : Byte) (s : State) : Host.Outcome State Fault Refusal :=
  writeNext x (s.reg x + kk) s

/-- `LD Vx, Vy` (41_load_alu R93). -/
def execLdReg (x y : Reg) (s : State) : Host.Outcome State Fault Refusal :=
  writeNext x (s.reg y) s

/-- `OR Vx, Vy` (41_load_alu R94): `VF` is left alone. -/
def execOrReg (x y : Reg) (s : State) : Host.Outcome State Fault Refusal :=
  writeNext x (s.reg x ||| s.reg y) s

/-- `AND Vx, Vy` (41_load_alu R95): `VF` is left alone. -/
def execAndReg (x y : Reg) (s : State) : Host.Outcome State Fault Refusal :=
  writeNext x (s.reg x &&& s.reg y) s

/-- `XOR Vx, Vy` (41_load_alu R96): `VF` is left alone. -/
def execXorReg (x y : Reg) (s : State) : Host.Outcome State Fault Refusal :=
  writeNext x (s.reg x ^^^ s.reg y) s

/-- `ADD Vx, Vy` (41_load_alu R97): the sum is taken before `VF` is written, and the result is written last. -/
def execAddReg (x y : Reg) (s : State) : Host.Outcome State Fault Refusal :=
  let sum := s.reg x + s.reg y
  writeNext x sum (s.setReg vf (carryFlag (s.reg x) (s.reg y)))

/-- `SUB Vx, Vy` (41_load_alu R98): the difference reads the registers after the `VF` write. -/
def execSub (x y : Reg) (s : State) : Host.Outcome State Fault Refusal :=
  let s₁ := s.setReg vf (greaterFlag (s.reg x) (s.reg y))
  writeNext x (s₁.reg x - s₁.reg y) s₁

/-- `SHR Vx` (41_load_alu R99): the shift reads the register after the `VF` write. -/
def execShr (x : Reg) (s : State) : Host.Outcome State Fault Refusal :=
  let s₁ := s.setReg vf (lsbFlag (s.reg x))
  writeNext x (s₁.reg x >>> 1) s₁

/-- `SUBN Vx, Vy` (41_load_alu R100): the difference reads the registers after the `VF` write. -/
def execSubn (x y : Reg) (s : State) : Host.Outcome State Fault Refusal :=
  let s₁ := s.setReg vf (greaterFlag (s.reg y) (s.reg x))
  writeNext x (s₁.reg y - s₁.reg x) s₁

/-- `SHL Vx` (41_load_alu R101): the shift reads the register after the `VF` write. -/
def execShl (x : Reg) (s : State) : Host.Outcome State Fault Refusal :=
  let s₁ := s.setReg vf (msbFlag (s.reg x))
  writeNext x (s₁.reg x <<< 1) s₁

/-- `RND Vx, kk` (41_load_alu R102): the drawn byte is the free value of this draw (log row 6). -/
def execRnd (x : Reg) (kk : Byte) (s : State) : Host.Outcome State Fault Refusal :=
  writeNext x (Config.rnd s.draws &&& kk) s.countDraw

end Sys2Proof.Machine
end

