-- ==== Sys2Proof/Machine/KeypadTimers.lean ====
section
/-! DEFINITION. Keypad and timer instructions (44_keypad_timers.md). -/

namespace Sys2Proof.Machine

/-- `SKP Vx` (44_keypad_timers R131). -/
def execSkp (x : Reg) (s : State) : Host.Outcome State Fault Refusal :=
  .next (s.skipIf (s.pressed (s.reg x)))

/-- `SKNP Vx` (44_keypad_timers R132). -/
def execSknp (x : Reg) (s : State) : Host.Outcome State Fault Refusal :=
  .next (s.skipIf (!s.pressed (s.reg x)))

/-- `LD Vx, DT` (44_keypad_timers R133). -/
def execLdVxDt (x : Reg) (s : State) : Host.Outcome State Fault Refusal :=
  writeNext x s.dt s

/-- `LD Vx, K` (44_keypad_timers R134): with no key held nothing changes and the step is `Ok`; else `Select(K)`, the
lowest held key, or under `KEY_SELECT = any` a free choice among the held keys (log row 3). -/
def execLdVxK (x : Reg) (s : State) : Host.Outcome State Fault Refusal :=
  match s.heldKeys with
  | [] => .next s
  | k :: ks =>
    match s.params.keySelect with
    | .lowest => writeNext x (keyByte k) s
    | .any => writeNext x (keyByte ((k :: ks).getD (Config.keyPick s.draws % (ks.length + 1)) k)) s.countDraw

/-- `LD DT, Vx` (44_keypad_timers R135). -/
def execLdDtVx (x : Reg) (s : State) : Host.Outcome State Fault Refusal :=
  .next (s.setDt (s.reg x)).advance

/-- `LD ST, Vx` (44_keypad_timers R136): one `Beep`; `x` is decoded, its register is not read, `ST` is not written (log
row 15). -/
def execLdStVx (_x : Reg) (s : State) : Host.Outcome State Fault Refusal :=
  .next s.emitBeep.advance

end Sys2Proof.Machine
end

