-- ==== Sys2Proof/Machine/Fetch.lean ====
section
/-! DEFINITION. Fetch and decode, the first two parts of a `Step` (30_encoding R50), and the placing of a word where the
next fetch reads it. -/

namespace Sys2Proof.Machine

/-- `op := MemRead(pc, 2)`: two bytes at `pc`, most significant first; both must lie in memory (20_memory R31, R32). -/
def fetch (s : State) : Except Fault Word :=
  match rangeFault s.pc.toNat 2 with
  | some f => .error f
  | none => .ok (wordOfBytes (s.byte s.pc.toNat) (s.byte (s.pc.toNat + 1)))

/-- The fault a rejected word raises (60_exceptions R141). -/
def decodeFault (op : Word) : DecodeReject → Fault
  | .unrecognizedOpcode w => .unrecognizedOpcode w
  | .tooFewBytes => .unrecognizedOpcode op

/-- Fetch, then decode: the first fault met is the one reported (60_exceptions R146). -/
def fetchDecode (s : State) : Except Fault Instr :=
  match fetch s with
  | .error f => .error f
  | .ok op =>
    match decode op with
    | .ok i => .ok i
    | .error e => .error (decodeFault op e)

/-- The state with a word stored at `pc`, high byte at the lower address (20_memory R32); where `pc` is above 0xFFE no
fetch can read two bytes and nothing is stored. -/
def placeWord (s : State) (op : Word) : State :=
  match rangeFault s.pc.toNat 2 with
  | some _ => s
  | none => s.setBytes s.pc.toNat [highByte op, lowByte op]

end Sys2Proof.Machine
end

