-- ==== Sys2Proof/Machine/Step.lean ====
section
/-! DEFINITION. One `Step` of the core: fetch, decode, execute (30_encoding R50). -/

namespace Sys2Proof.Machine

/-- `Step` (30_encoding R50): nothing is added around the execution; the instruction's own rule moves `pc`. -/
def step (s : State) : Host.Outcome State Fault Refusal :=
  match fetchDecode s with
  | .error f => raise f
  | .ok i => exec i s

/-- The state with the table word `w` (its low `nbits` bits) stored at `pc`, where `step` fetches next (log row 20). -/
def State.withFetchWord (s : State) (nbits w : Nat) : State := placeWord s (BitVec.ofNat 16 (w % 2 ^ nbits))

end Sys2Proof.Machine
end

