-- ==== Sys2Proof/Machine/Events.lean ====
section
/-! DEFINITION. The host's side of the interface (00_scope R5, 92_eei D2): the six atomic events, what each does to the
state, and what the host is told of it. `Step` is `Machine.step`; any list of events, in any order, is a run (70_reset
R171, R176). -/

namespace Sys2Proof.Machine

/-- The reset options (70_reset_and_hazards R161): one optional override for each piece of state of 10_state.md. -/
structure ResetOptions where
  v : Vector (Option Byte) 16 := Vector.replicate 16 none
  pc : Option Word := none
  i : Option Word := none
  stack : Option (List Word) := none
  dt : Option Byte := none
  st : Option Byte := none
  mem : List Host.Cell := []
  fb : Option Framebuffer := none
  keys : Option (BitVec 16) := none
  deriving DecidableEq, Repr

/-- The host events (00_scope R5). -/
inductive Event where
  /-- `Reset(options)` (70_reset R160) -/
  | reset (o : ResetOptions)
  /-- `Load(bytes, start = 0x200)` (20_memory R42) -/
  | load (bytes : List Byte) (start : Nat := entry.toNat)
  /-- `Step` (30_encoding R50) -/
  | step
  /-- `Tick` (60_exceptions R148) -/
  | tick
  /-- `KeyDown(k)` (60_exceptions R150) -/
  | keyDown (k : Key)
  /-- `KeyUp(k)` (60_exceptions R150) -/
  | keyUp (k : Key)
  deriving DecidableEq, Repr

/-- A timer's decrement: by 1, never below 0 (60_exceptions R148). -/
def countDown (t : Byte) : Byte := if t = 0x00#8 then 0x00#8 else t - 0x01#8

/-- `Tick` (60_exceptions R148). -/
def tick (s : State) : State := (s.setDt (countDown s.dt)).setSt (countDown s.st)

/-- `KeyDown(k)`: `K[k] <- 1` (60_exceptions R150). -/
def keyDown (k : Key) (s : State) : State := s.setKeys (s.keys ||| BitVec.twoPow 16 k.val)

/-- `KeyUp(k)`: `K[k] <- 0` (60_exceptions R150). -/
def keyUp (k : Key) (s : State) : State := s.setKeys (s.keys &&& ~~~BitVec.twoPow 16 k.val)

/-- `Load(bytes, start = 0x200)` (20_memory R42): without a start, at `ENTRY`; past the end of memory there is no move (R43,
D19, U3). -/
def load (bytes : List Byte) (s : State) (start : Nat := entry.toNat) : Host.Outcome State Fault Refusal :=
  if start + bytes.length ≤ maxAddr + 1 then .next (s.setBytes start bytes) else .refused .loadBeyondMemory

/-- Memory overrides, in the order the host lists them. -/
def setCells (s : State) : List Host.Cell → State
  | [] => s
  | (a, b) :: cs => setCells (s.setByte a b) cs

/-- The font bytes written over 0x000 to 0x04F (70_reset R160, R162). -/
def writeFont (s : State) : State := s.setBytes 0 s.params.font.toList

/-- Every override is a legal value of its field: the stack holds at most `STACK_DEPTH` entries and a memory override
lies in memory; the other ranges hold by type (70_reset R161, D22). -/
def resetOptionsLegal (o : ResetOptions) (s : State) : Bool :=
  (match s.params.stackDepth, o.stack with
    | some d, some es => decide (es.length ≤ d)
    | some _, none => true
    | none, some _ => true
    | none, none => true)
  && o.mem.all (fun c => decide (c.1 ≤ maxAddr))

/-- The fields but memory after the overrides: the override if given, else the value of 10_state R25. Memory has its
reset contents; the parameters stay, and so do the model's two counters (log row 8). -/
def resetFields (o : ResetOptions) (s : State) : State :=
  { v := Vector.ofFn (fun r : Reg => (o.v[r]).getD (State.reset.reg r))
    pc := o.pc.getD State.reset.pc
    i := o.i.getD State.reset.i
    stack := o.stack.getD State.reset.stack
    dt := o.dt.getD State.reset.dt
    st := o.st.getD State.reset.st
    mem := State.reset.mem
    fb := o.fb.getD State.reset.fb
    keys := o.keys.getD State.reset.keys
    params := s.params
    draws := s.draws
    beeps := s.beeps }

/-- Every field after the overrides, memory included, before the font write (70_reset R160). -/
def overridden (o : ResetOptions) (s : State) : State := setCells (resetFields o s) o.mem

/-- `Reset(options)` (70_reset R160): the overrides, then the font; an option outside its range has no move (R161). -/
def resetWith (o : ResetOptions) (s : State) : Host.Outcome State Fault Refusal :=
  if resetOptionsLegal o s then .next (writeFont (overridden o s)) else .refused .resetOptionOutOfRange

/-- What an event does (00_scope R5, R6): atomic, run to completion. -/
def hostEvent (e : Event) (s : State) : Host.Outcome State Fault Refusal :=
  match e with
  | .reset o => resetWith o s
  | .load bytes start => load bytes s start
  | .step => step s
  | .tick => .next (tick s)
  | .keyDown k => .next (keyDown k s)
  | .keyUp k => .next (keyUp k s)

/-- What the host is told of an event: `Ok`, or `Fault(cause, info)` (00_scope R6), or that there is no such move. -/
inductive Report where
  | ok
  | fault (f : Fault)
  | noMove (r : Refusal)
  deriving DecidableEq, Repr

/-- Deliver one event: a fault and a refused move leave all state unchanged (60_exceptions R147), so the host may go on. -/
def deliver (e : Event) (s : State) : State × Report :=
  match hostEvent e s with
  | .next t => (t, .ok)
  | .fault f => (s, .fault f)
  | .refused r => (s, .noMove r)

/-- Deliver a list of events in order: the state at the end, and the reports, first event first (70_reset R171). -/
def deliverAll : List Event → State → State × List Report
  | [], s => (s, [])
  | e :: es, s =>
    let (t, r) := deliver e s
    let (u, rs) := deliverAll es t
    (u, r :: rs)

/-- The host's view of the framebuffer, "a flat 64×32 bit sequence" in index order (60_exceptions R153). -/
def framebufferView (s : State) : List Bool := (List.range 2048).map s.pixel

end Sys2Proof.Machine
end

