-- ==== Sys2Proof/Safety.lean ====
section
/-! DEFINITION. What counts as a state the machine can be in, a run that has stopped, a run that has gone wrong and a wait
(70_reset_and_hazards R175; 10_state R15, R18). -/

namespace Sys2Proof.Machine

/-- The call stack holds at most `STACK_DEPTH` entries (10_state R18 "0 .. STACK_DEPTH"). -/
abbrev State.stackOk (s : State) : Prop := ∀ d ∈ s.params.stackDepth, s.stack.length ≤ d

/-- Memory is in its canonical form. -/
abbrev State.memOk (s : State) : Prop := Memory.wf s.params.font s.mem

/-- The invariant every event keeps: canonical memory within 0x000 to 0xFFF and a stack within its depth. -/
abbrev State.Inv (s : State) : Prop := s.memOk ∧ s.stackOk

/-- The run has stopped normally at `pc`: the word there is `1nnn` with `nnn = pc` (70_reset R175, D21). -/
def Stopped (s : State) : Prop := ∃ nnn, fetchDecode s = .ok (.jp nnn) ∧ zext16 nnn = s.pc

/-- A step from this state faults: the run goes wrong here (70_reset R175). -/
def GoesWrong (s : State) : Prop := ∃ f, step s = .fault f

/-- The state waits in `LD Vx, K` with no key held: neither stopped nor faulted (70_reset R175). -/
def Waiting (s : State) : Prop := ∃ x, fetchDecode s = .ok (.ldVxK x) ∧ s.keys = 0#16

/-- No event of the run faulted or had no move: a run has gone wrong as soon as one step faulted (60_exceptions R147). -/
def SafeRun (es : List Event) (s : State) : Prop := ∀ r ∈ (deliverAll es s).2, r = .ok

end Sys2Proof.Machine
end

