-- ==== Sys2Proof/Certificates/Slice0/Obligations.lean ====
section
/-! DEFINITION. The statements for the provers. Each docstring names the rule or the section of spec/ it formalises; a clause
that rests on a decision of spec/92_eei_decisions.md or on the model's own choice says so and names it. -/

namespace Sys2Proof.Claims

open Sys2Proof.Machine

/-! ## How a statement says what is left unchanged -/

/-- The parts of the state a frame speaks of; the parameters are kept by every frame. -/
inductive Part where
  | regs | pc | i | stack | dt | st | mem | fb | keys | draws | beeps
  deriving DecidableEq, Repr

/-- The part is the same in both states: each register, each byte, each pixel. -/
def Part.Same (s t : State) : Part → Prop
  | .regs => ∀ r : Reg, t.reg r = s.reg r
  | .pc => t.pc = s.pc
  | .i => t.i = s.i
  | .stack => t.stack = s.stack
  | .dt => t.dt = s.dt
  | .st => t.st = s.st
  | .mem => ∀ a : Nat, t.byte a = s.byte a
  | .fb => ∀ p : Nat, t.pixel p = s.pixel p
  | .keys => t.keys = s.keys
  | .draws => t.draws = s.draws
  | .beeps => t.beeps = s.beeps

/-- Every part but the listed ones is the same in both states, and so are the parameters. -/
def KeepsAllBut (changed : List Part) (s t : State) : Prop :=
  (∀ p : Part, p ∉ changed → Part.Same s t p) ∧ t.params = s.params

/-- Every register but those named by `P` is the same in both states. -/
def KeepsRegsBut (P : Reg → Prop) (s t : State) : Prop := ∀ r : Reg, ¬ P r → t.reg r = s.reg r

/-! ## What the statements compute for themselves -/

/-- The bits of a word its instruction depends on: all but the nibbles 30_encoding R57 calls not examined. -/
def examinedBits : Instr → Word
  | .seReg _ _ | .sneReg _ _ => 0xFFF0#16
  | .shr _ | .shl _ => 0xFF0F#16
  | .cls | .ret | .sys _ | .jp _ | .call _ | .seImm _ _ | .sneImm _ _ | .ldImm _ _ | .addImm _ _ => 0xFFFF#16
  | .ldReg _ _ | .orReg _ _ | .andReg _ _ | .xorReg _ _ | .addReg _ _ | .sub _ _ | .subn _ _ => 0xFFFF#16
  | .ldI _ | .jpV0 _ | .rnd _ _ | .drw _ _ _ | .skp _ | .sknp _ | .ldVxDt _ | .ldVxK _ | .ldDtVx _ => 0xFFFF#16
  | .ldStVx _ | .addI _ | .ldF _ | .ldB _ | .ldMemVx _ | .ldVxMem _ => 0xFFFF#16

/-- Key `v` is held: `v <= 15 and K[v] = 1` (44_keypad_timers R130). -/
def Held (s : State) (v : Nat) : Prop := v ≤ 15 ∧ s.keys.getLsbD v = true

/-- A coordinate register of `DRW` as the draw samples it: 0 for `VF`, which is cleared first (43_display R122 (g)). -/
def coordinate (s : State) (x : Reg) : Nat := if x = vf then 0 else (s.reg x).toNat

/-- The bit of an 8 by `n` sprite at `I` that lands on pixel `(px, py)`, if one does: columns wrap modulo 64, rows modulo
32, bit 7 of a byte is the leftmost column (43_display R120, R122). -/
def spriteBit (s : State) (x y : Reg) (n px py : Nat) : Bool :=
  let col := (px + 64 - coordinate s x % 64) % 64
  let row := (py + 32 - coordinate s y % 32) % 32
  decide (col < 8) && (decide (row < n) && (s.byte (s.i.toNat + row)).getLsbD (7 - col))

/-- `pc` after an instruction that does not fault, from the table of 10_state R13; for `SYS`, which faults unless its
parameter says otherwise, from decision D3. -/
def pcAfter (s : State) : Instr → Word
  | .seImm x kk => if s.reg x = kk then s.pc + 4#16 else s.pc + 2#16
  | .sneImm x kk => if s.reg x = kk then s.pc + 2#16 else s.pc + 4#16
  | .seReg x y => if s.reg x = s.reg y then s.pc + 4#16 else s.pc + 2#16
  | .sneReg x y => if s.reg x = s.reg y then s.pc + 2#16 else s.pc + 4#16
  | .skp x => if (s.reg x).toNat ≤ 15 ∧ s.keys.getLsbD (s.reg x).toNat = true then s.pc + 4#16 else s.pc + 2#16
  | .sknp x => if (s.reg x).toNat ≤ 15 ∧ s.keys.getLsbD (s.reg x).toNat = true then s.pc + 2#16 else s.pc + 4#16
  | .jp nnn | .call nnn => BitVec.ofNat 16 nnn.toNat
  | .sys nnn => if s.params.sysBehaviour = .jump then BitVec.ofNat 16 nnn.toNat else s.pc + 2#16
  | .jpV0 nnn => BitVec.ofNat 16 ((s.reg 0).toNat + nnn.toNat)
  | .ret => s.stack.getLastD s.pc
  | .ldVxK _ => if s.keys = 0#16 then s.pc else s.pc + 2#16
  | .cls | .ldImm _ _ | .addImm _ _ | .ldReg _ _ | .orReg _ _ | .andReg _ _ | .xorReg _ _ => s.pc + 2#16
  | .addReg _ _ | .sub _ _ | .shr _ | .subn _ _ | .shl _ | .ldI _ | .rnd _ _ | .drw _ _ _ => s.pc + 2#16
  | .ldVxDt _ | .ldDtVx _ | .ldStVx _ | .addI _ | .ldF _ | .ldB _ | .ldMemVx _ | .ldVxMem _ => s.pc + 2#16

/-- The out-of-range fault of the `n` bytes from `I` up, if any lies above 0xFFF (60_exceptions R143). -/
def dataFault (s : State) (n : Nat) : Option Fault :=
  if 0 < n ∧ 0xFFF < s.i.toNat + n - 1 then some (.addressOutOfRange (max s.i.toNat 0x1000)) else none

/-- The one fault an instruction can raise at execute (60_exceptions R140 to R146), `SYS` by its parameter (D3). -/
def executeFault (s : State) : Instr → Option Fault
  | .sys nnn => if s.params.sysBehaviour = .fault then some (.unrecognizedOpcode (BitVec.ofNat 16 nnn.toNat)) else none
  | .ret => if s.stack = [] then some .stackUnderflow else none
  | .call _ => if s.params.stackDepth = some s.stack.length then some .stackOverflow else none
  | .drw _ _ n => dataFault s n.toNat
  | .ldB _ => dataFault s 3
  | .ldMemVx x | .ldVxMem x => dataFault s (x.val + 1)
  | .cls | .jp _ | .seImm _ _ | .sneImm _ _ | .seReg _ _ | .ldImm _ _ | .addImm _ _ | .ldReg _ _ | .orReg _ _ => none
  | .andReg _ _ | .xorReg _ _ | .addReg _ _ | .sub _ _ | .shr _ | .subn _ _ | .shl _ | .sneReg _ _ | .ldI _ => none
  | .jpV0 _ | .rnd _ _ | .skp _ | .sknp _ | .ldVxDt _ | .ldVxK _ | .ldDtVx _ | .ldStVx _ | .addI _ | .ldF _ => none

end Sys2Proof.Claims

open Sys2Proof Sys2Proof.Machine Sys2Proof.Claims

/-! ## Decoding and encoding -/

/-- Thirteen words written out from the opcode map of 30_encoding R55, among them the four the source shows, decode to the
instructions they stand for, and two words with an unknown selector are rejected. The other numbers are the map of decision
D24 (log row 14); that 5127 is `SE`, 8126 `SHR` and 0FEE `SYS` are D4, 90_conflicts C6 and D7 (log row 13). -/
def Obligations.DecodeReadsSpecWords : Prop :=
  decode 0x00E0#16 = .ok .cls ∧ decode 0x2095#16 = .ok (.call 0x095#12) ∧
  decode 0x7AFF#16 = .ok (.addImm 10 0xFF#8) ∧ decode 0xFA33#16 = .ok (.ldB 10) ∧
  decode 0x00EE#16 = .ok .ret ∧ decode 0x0FEE#16 = .ok (.sys 0xFEE#12) ∧ decode 0x1ABC#16 = .ok (.jp 0xABC#12) ∧
  decode 0x5127#16 = .ok (.seReg 1 2) ∧ decode 0x8126#16 = .ok (.shr 1) ∧ decode 0xB2FE#16 = .ok (.jpV0 0x2FE#12) ∧
  decode 0xD125#16 = .ok (.drw 1 2 5#4) ∧ decode 0xE2A1#16 = .ok (.sknp 2) ∧ decode 0xF265#16 = .ok (.ldVxMem 2) ∧
  decode 0x8128#16 = .error (.unrecognizedOpcode 0x8128#16) ∧ decode 0xF166#16 = .error (.unrecognizedOpcode 0xF166#16)

/-- The opcode map of 30_encoding R55 at every value of every field, the not-examined nibbles among them. It rests on
decisions D24 (the numbers, log row 14), D4 (groups 5 and 9), D7 (group 0) and 90_conflicts C6 (`SHR`, `SHL`; log row
13). -/
def Obligations.DecodeFollowsOpcodeMap : Prop :=
  ∀ (x y : Reg) (n : BitVec 4) (kk : Byte) (nnn : BitVec 12),
    decode 0x00E0#16 = .ok .cls ∧ decode 0x00EE#16 = .ok .ret ∧
    (nnn ≠ 0x0E0#12 → nnn ≠ 0x0EE#12 → decode (packNNN 0x0#4 nnn) = .ok (.sys nnn)) ∧
    decode (packNNN 0x1#4 nnn) = .ok (.jp nnn) ∧ decode (packNNN 0x2#4 nnn) = .ok (.call nnn) ∧
    decode (packXKK 0x3#4 x kk) = .ok (.seImm x kk) ∧ decode (packXKK 0x4#4 x kk) = .ok (.sneImm x kk) ∧
    decode (packXYN 0x5#4 x y n) = .ok (.seReg x y) ∧
    decode (packXKK 0x6#4 x kk) = .ok (.ldImm x kk) ∧ decode (packXKK 0x7#4 x kk) = .ok (.addImm x kk) ∧
    decode (packXYN 0x8#4 x y 0x0#4) = .ok (.ldReg x y) ∧ decode (packXYN 0x8#4 x y 0x1#4) = .ok (.orReg x y) ∧
    decode (packXYN 0x8#4 x y 0x2#4) = .ok (.andReg x y) ∧ decode (packXYN 0x8#4 x y 0x3#4) = .ok (.xorReg x y) ∧
    decode (packXYN 0x8#4 x y 0x4#4) = .ok (.addReg x y) ∧ decode (packXYN 0x8#4 x y 0x5#4) = .ok (.sub x y) ∧
    decode (packXYN 0x8#4 x y 0x6#4) = .ok (.shr x) ∧ decode (packXYN 0x8#4 x y 0x7#4) = .ok (.subn x y) ∧
    decode (packXYN 0x8#4 x y 0xE#4) = .ok (.shl x) ∧ decode (packXYN 0x9#4 x y n) = .ok (.sneReg x y) ∧
    decode (packNNN 0xA#4 nnn) = .ok (.ldI nnn) ∧ decode (packNNN 0xB#4 nnn) = .ok (.jpV0 nnn) ∧
    decode (packXKK 0xC#4 x kk) = .ok (.rnd x kk) ∧ decode (packXYN 0xD#4 x y n) = .ok (.drw x y n) ∧
    decode (packXKK 0xE#4 x 0x9E#8) = .ok (.skp x) ∧ decode (packXKK 0xE#4 x 0xA1#8) = .ok (.sknp x) ∧
    decode (packXKK 0xF#4 x 0x07#8) = .ok (.ldVxDt x) ∧ decode (packXKK 0xF#4 x 0x0A#8) = .ok (.ldVxK x) ∧
    decode (packXKK 0xF#4 x 0x15#8) = .ok (.ldDtVx x) ∧ decode (packXKK 0xF#4 x 0x18#8) = .ok (.ldStVx x) ∧
    decode (packXKK 0xF#4 x 0x1E#8) = .ok (.addI x) ∧ decode (packXKK 0xF#4 x 0x29#8) = .ok (.ldF x) ∧
    decode (packXKK 0xF#4 x 0x33#8) = .ok (.ldB x) ∧ decode (packXKK 0xF#4 x 0x55#8) = .ok (.ldMemVx x) ∧
    decode (packXKK 0xF#4 x 0x65#8) = .ok (.ldVxMem x)

/-- The words decode rejects are exactly those 30_encoding R60 lists, and the reject carries the word. The selector numbers
rest on decision D24 (log row 14). -/
def Obligations.UnrecognizedWordsExactly : Prop :=
  ∀ op : Word,
    (decode op = .error (.unrecognizedOpcode op) ↔
      (opGroup op = 0x8#4 ∧ opN op ∈ [0x8#4, 0x9#4, 0xA#4, 0xB#4, 0xC#4, 0xD#4, 0xF#4]) ∨
      (opGroup op = 0xE#4 ∧ opKK op ≠ 0x9E#8 ∧ opKK op ≠ 0xA1#8) ∨
      (opGroup op = 0xF#4 ∧
        opKK op ∉ [0x07#8, 0x0A#8, 0x15#8, 0x18#8, 0x1E#8, 0x29#8, 0x33#8, 0x55#8, 0x65#8])) ∧
    ∀ e, decode op = .error e → e = .unrecognizedOpcode op

/-- A not-examined nibble never matters, and every other bit of a word selects the instruction or is an operand: two words
of one instruction agree on all its examined bits (30_encoding R57; groups 5 and 9 are decision D4, log row 13). -/
def Obligations.NotExaminedNibblesDoNotMatter : Prop :=
  (∀ (x y : Reg) (n n' : BitVec 4), decode (packXYN 0x5#4 x y n) = decode (packXYN 0x5#4 x y n') ∧
    decode (packXYN 0x9#4 x y n) = decode (packXYN 0x9#4 x y n')) ∧
  (∀ (x y y' : Reg), decode (packXYN 0x8#4 x y 0x6#4) = decode (packXYN 0x8#4 x y' 0x6#4) ∧
    decode (packXYN 0x8#4 x y 0xE#4) = decode (packXYN 0x8#4 x y' 0xE#4)) ∧
  (∀ (op op' : Word) (i : Instr), decode op = .ok i → decode op' = .ok i →
    op &&& examinedBits i = op' &&& examinedBits i)

/-- Decode and encode agree on every well-formed instruction, on words and on bytes (the map is decision D24, log row 14; the
not-examined nibbles, which the encoder writes 0, log row 13). -/
def Obligations.DecodeOfEncodeIsIdentity : Prop :=
  ∀ (i : Instr) (rest : List Byte), i.wellFormed = true →
    decode (encode i) = .ok i ∧ decodeBytes (encodeBytes i ++ rest) = .ok (i, rest)

/-- What decodes is well-formed, and its encoding is the word with the not-examined nibble cleared. Which nibbles are free is
decision D4 (groups 5 and 9) and 90_conflicts C6 (`SHR`, `SHL`), and that the encoder writes 0 there is the model's choice
(log row 13); the numbers are D24 (log row 14). -/
def Obligations.EncodeOfDecodeKeepsExaminedBits : Prop :=
  ∀ (op : Word) (i : Instr), decode op = .ok i → i.wellFormed = true ∧ encode i = op &&& examinedBits i

/-! ## The step -/

/-- 30_encoding R50: one `Step` is fetch, decode, execute; the first two may fault, and fetch does not move `pc` (the
instruction runs in the very state the step began in). -/
def Obligations.StepRunsDecodedInstruction : Prop :=
  ∀ s : State,
    (∀ f, fetch s = .error f → step s = .fault f) ∧
    (∀ op, fetch s = .ok op → op = s.byte s.pc.toNat ++ s.byte (s.pc.toNat + 1) ∧
      (∀ e, decode op = .error e → step s = .fault (.unrecognizedOpcode op)) ∧
      (∀ i, decode op = .ok i → step s = exec i s))

/-- Fetch reads the two bytes at `pc` and `pc + 1`, most significant first (20_memory section 3); where one lies above
0xFFF the step faults with the lowest such address (decision D5). -/
def Obligations.FetchReadsTwoBytesBigEndian : Prop :=
  ∀ s : State,
    (s.pc.toNat ≤ 0xFFE → ∃ op : Word, fetch s = .ok op ∧
      op.extractLsb' 8 8 = s.byte s.pc.toNat ∧ op.extractLsb' 0 8 = s.byte (s.pc.toNat + 1)) ∧
    (0xFFE < s.pc.toNat → step s = .fault (.addressOutOfRange (max s.pc.toNat 0x1000)))

/-- A word placed where the next fetch reads it is the instruction the next step runs, and nothing else has changed. The
placing, `State.withFetchWord`, is the model's own stand-in for the host's `Load` (log row 20). -/
def Obligations.PlacedInstructionRuns : Prop :=
  ∀ (s : State) (i : Instr), i.wellFormed = true → s.pc.toNat ≤ 0xFFE →
    step (s.withFetchWord 16 (encode i).toNat) = exec i (s.withFetchWord 16 (encode i).toNat) ∧
    KeepsAllBut [.mem] s (s.withFetchWord 16 (encode i).toNat) ∧
    ∀ a, a ≠ s.pc.toNat → a ≠ s.pc.toNat + 1 → (s.withFetchWord 16 (encode i).toNat).byte a = s.byte a

/-- Fetch sees stores at once (20_memory R40, derived there): after `LD [I], Vx` over the next word, the next fetch reads
`V0` and `V1`. -/
def Obligations.StoredBytesAreFetchedNext : Prop :=
  ∀ (x : Reg) (s : State), 1 ≤ x.val → s.i.toNat + x.val ≤ 0xFFF → s.i = s.pc + 2#16 →
    ∃ t, exec (.ldMemVx x) s = .next t ∧ fetch t = .ok (s.reg 0 ++ s.reg 1)

/-! ## Control transfer -/

/-- `SYS addr`: on this hardware always `UnrecognizedOpcode(op)`, `op` the whole word (decision D3); the parameter
`SYS_BEHAVIOUR` gives the two alternatives D3 names. -/
def Obligations.SysFaultsUnlessParameterSaysOtherwise : Prop :=
  ∀ (nnn : BitVec 12) (s : State),
    (s.params.sysBehaviour = .fault → exec (.sys nnn) s = .fault (.unrecognizedOpcode (0x0#4 ++ nnn))) ∧
    (s.params.sysBehaviour = .nop → ∃ t, exec (.sys nnn) s = .next t ∧ t.pc = s.pc + 2#16 ∧ KeepsAllBut [.pc] s t) ∧
    (s.params.sysBehaviour = .jump →
      ∃ t, exec (.sys nnn) s = .next t ∧ t.pc.toNat = nnn.toNat ∧ KeepsAllBut [.pc] s t)

/-- 40_control_transfer R71: `RET` pops the newest entry into `pc` as it is, and faults on an empty stack. -/
def Obligations.RetPopsIntoPc : Prop :=
  ∀ s : State,
    (∀ (es : List Word) (a : Word), s.stack = es ++ [a] →
      ∃ t, exec .ret s = .next t ∧ t.pc = a ∧ t.stack = es ∧ t.reg vf = s.reg vf) ∧
    (s.stack = [] → exec .ret s = .fault .stackUnderflow)

/-- 40_control_transfer R72: `JP addr` sets `pc` to the address, checks nothing, leaves the stack and `VF` alone; a jump
to itself changes no state. -/
def Obligations.JpSetsPc : Prop :=
  ∀ (nnn : BitVec 12) (s : State),
    (∃ t, exec (.jp nnn) s = .next t ∧ t.pc.toNat = nnn.toNat ∧ t.stack = s.stack ∧ t.reg vf = s.reg vf) ∧
    (s.pc.toNat = nnn.toNat → exec (.jp nnn) s = .next s)

/-- `CALL addr`: pushes `pc + 2` and jumps; with `SP = STACK_DEPTH` it faults (decision D6, which makes the depth a
parameter, unbounded among its values). -/
def Obligations.CallPushesReturnAddress : Prop :=
  ∀ (nnn : BitVec 12) (s : State),
    (s.params.stackDepth ≠ some s.stack.length →
      ∃ t, exec (.call nnn) s = .next t ∧ t.stack = s.stack ++ [s.pc + 2#16] ∧ t.pc.toNat = nnn.toNat ∧
        t.reg vf = s.reg vf) ∧
    (s.params.stackDepth = some s.stack.length → exec (.call nnn) s = .fault .stackOverflow)

/-- 40_control_transfer R74, R75: the immediate skips advance `pc` by 4 when their condition holds, else by 2. -/
def Obligations.SkipImmediateMovesPc : Prop :=
  ∀ (x : Reg) (kk : Byte) (s : State),
    (∃ t, exec (.seImm x kk) s = .next t ∧ t.reg vf = s.reg vf ∧
      (s.reg x = kk → t.pc = s.pc + 4#16) ∧ (s.reg x ≠ kk → t.pc = s.pc + 2#16)) ∧
    (∃ t, exec (.sneImm x kk) s = .next t ∧ t.reg vf = s.reg vf ∧
      (s.reg x ≠ kk → t.pc = s.pc + 4#16) ∧ (s.reg x = kk → t.pc = s.pc + 2#16))

/-- The register skips advance `pc` by 4 when their condition holds, else by 2 (40_control_transfer, SE and SNE of two
registers; that their words carry a free low nibble is decision D4). -/
def Obligations.SkipRegisterMovesPc : Prop :=
  ∀ (x y : Reg) (s : State),
    (∃ t, exec (.seReg x y) s = .next t ∧ t.reg vf = s.reg vf ∧
      (s.reg x = s.reg y → t.pc = s.pc + 4#16) ∧ (s.reg x ≠ s.reg y → t.pc = s.pc + 2#16)) ∧
    (∃ t, exec (.sneReg x y) s = .next t ∧ t.reg vf = s.reg vf ∧
      (s.reg x ≠ s.reg y → t.pc = s.pc + 4#16) ∧ (s.reg x = s.reg y → t.pc = s.pc + 2#16))

/-- 40_control_transfer R79: the target is the exact sum of `V0` and the address, never reduced modulo 4096. -/
def Obligations.JpV0AddsV0 : Prop :=
  ∀ (nnn : BitVec 12) (s : State),
    ∃ t, exec (.jpV0 nnn) s = .next t ∧ t.pc.toNat = (s.reg 0).toNat + nnn.toNat ∧ t.reg vf = s.reg vf

/-- A `RET` that finds the stack a `CALL` left goes to the word after the `CALL`, with the stack as it was before. -/
def Obligations.ReturnUndoesCall : Prop :=
  ∀ (nnn : BitVec 12) (s t u : State), exec (.call nnn) s = .next t → u.stack = t.stack →
    ∃ w, exec .ret u = .next w ∧ w.pc = s.pc + 2#16 ∧ w.stack = s.stack

/-! ## Load, arithmetic, logic -/

/-- 41_load_alu R91. -/
def Obligations.LdImmLoadsByte : Prop :=
  ∀ (x : Reg) (kk : Byte) (s : State),
    ∃ t, exec (.ldImm x kk) s = .next t ∧ t.reg x = kk ∧ t.pc = s.pc + 2#16 ∧ (x ≠ vf → t.reg vf = s.reg vf)

/-- 41_load_alu R92: modulo 256, and no carry flag. -/
def Obligations.AddImmWrapsWithoutFlag : Prop :=
  ∀ (x : Reg) (kk : Byte) (s : State),
    ∃ t, exec (.addImm x kk) s = .next t ∧ (t.reg x).toNat = ((s.reg x).toNat + kk.toNat) % 256 ∧
      t.pc = s.pc + 2#16 ∧ (x ≠ vf → t.reg vf = s.reg vf)

/-- 41_load_alu R93; with `x = y` nothing but `pc` changes. -/
def Obligations.LdRegCopiesRegister : Prop :=
  ∀ (x y : Reg) (s : State),
    ∃ t, exec (.ldReg x y) s = .next t ∧ t.reg x = s.reg y ∧ t.pc = s.pc + 2#16 ∧
      (x ≠ vf → t.reg vf = s.reg vf) ∧ (x = y → KeepsAllBut [.pc] s t)

/-- `OR`, `AND`, `XOR` bit by bit; `VF` is left alone (decision D23). -/
def Obligations.LogicWorksBitwise : Prop :=
  ∀ (x y : Reg) (s : State),
    (∃ t, exec (.orReg x y) s = .next t ∧ t.pc = s.pc + 2#16 ∧ (x ≠ vf → t.reg vf = s.reg vf) ∧
      ∀ k < 8, (t.reg x).getLsbD k = ((s.reg x).getLsbD k || (s.reg y).getLsbD k)) ∧
    (∃ t, exec (.andReg x y) s = .next t ∧ t.pc = s.pc + 2#16 ∧ (x ≠ vf → t.reg vf = s.reg vf) ∧
      ∀ k < 8, (t.reg x).getLsbD k = ((s.reg x).getLsbD k && (s.reg y).getLsbD k)) ∧
    (∃ t, exec (.xorReg x y) s = .next t ∧ t.pc = s.pc + 2#16 ∧ (x ≠ vf → t.reg vf = s.reg vf) ∧
      ∀ k < 8, (t.reg x).getLsbD k = ((s.reg x).getLsbD k ^^ (s.reg y).getLsbD k))

/-- `ADD Vx, Vy`: the sum of the old values modulo 256, the carry in `VF`, the result written last, so it wins when
`x = 15` (41_load_alu R97; the forms that name `VF` are decision D8). -/
def Obligations.AddRegSetsCarry : Prop :=
  ∀ (x y : Reg) (s : State),
    ∃ t, exec (.addReg x y) s = .next t ∧
      (t.reg x).toNat = ((s.reg x).toNat + (s.reg y).toNat) % 256 ∧
      (x ≠ vf → (t.reg vf).toNat = if (s.reg x).toNat + (s.reg y).toNat > 255 then 1 else 0) ∧
      t.pc = s.pc + 2#16

/-- `SUB` and `SUBN` in every form: `VF` is a strict greater-than, and the difference reads the registers after the `VF`
write (41_load_alu, SUB and SUBN; the forms that name `VF` are decision D8). -/
def Obligations.SubtractSetsGreaterFlag : Prop :=
  ∀ (x y : Reg) (s : State),
    (∃ t, exec (.sub x y) s = .next t ∧ t.pc = s.pc + 2#16 ∧
      ∃ f : Nat, f = (if (s.reg x).toNat > (s.reg y).toNat then 1 else 0) ∧
        (x ≠ vf → (t.reg vf).toNat = f) ∧
        (x ≠ vf → y ≠ vf → (t.reg x).toNat = (256 + (s.reg x).toNat - (s.reg y).toNat) % 256) ∧
        (x ≠ vf → y = vf → (t.reg x).toNat = (256 + (s.reg x).toNat - f) % 256) ∧
        (x = vf → y ≠ vf → (t.reg vf).toNat = (256 + f - (s.reg y).toNat) % 256) ∧
        (x = vf → y = vf → t.reg vf = 0#8)) ∧
    (∃ t, exec (.subn x y) s = .next t ∧ t.pc = s.pc + 2#16 ∧
      ∃ f : Nat, f = (if (s.reg y).toNat > (s.reg x).toNat then 1 else 0) ∧
        (x ≠ vf → (t.reg vf).toNat = f) ∧
        (x ≠ vf → y ≠ vf → (t.reg x).toNat = (256 + (s.reg y).toNat - (s.reg x).toNat) % 256) ∧
        (x ≠ vf → y = vf → (t.reg x).toNat = (256 + f - (s.reg x).toNat) % 256) ∧
        (x = vf → y ≠ vf → (t.reg vf).toNat = (256 + (s.reg y).toNat - f) % 256) ∧
        (x = vf → y = vf → t.reg vf = 0#8))

/-- `SHR` and `SHL`: `VF` takes the bit shifted out and `Vx` is shifted by one; with `x = 15` the shift reads the new `VF`
(41_load_alu, SHR and SHL; the form `x = 15` is decision D8). -/
def Obligations.ShiftsCaptureLostBit : Prop :=
  ∀ (x : Reg) (s : State),
    (∃ t, exec (.shr x) s = .next t ∧ t.pc = s.pc + 2#16 ∧
      (x ≠ vf → (t.reg vf).toNat = (s.reg x).toNat % 2 ∧ (t.reg x).toNat = (s.reg x).toNat / 2) ∧
      (x = vf → t.reg vf = 0#8)) ∧
    (∃ t, exec (.shl x) s = .next t ∧ t.pc = s.pc + 2#16 ∧
      (x ≠ vf → (t.reg vf).toNat = (s.reg x).toNat / 128 ∧ (t.reg x).toNat = (s.reg x).toNat * 2 % 256) ∧
      (x = vf → (t.reg vf).toNat = 2 * ((s.reg vf).toNat / 128)))

/-- `RND Vx, kk`: a free byte masked by `kk`, a fresh draw each time (41_load_alu, RND). That the draw is
`Config.rnd draws` is the model's choice, log row 6; nothing is known of the byte. -/
def Obligations.RndMasksDraw : Prop :=
  ∀ (x : Reg) (kk : Byte) (s : State),
    ∃ t, exec (.rnd x kk) s = .next t ∧ t.reg x &&& ~~~kk = 0#8 ∧ (kk = 0#8 → t.reg x = 0#8) ∧
      t.reg x = Config.rnd s.draws &&& kk ∧ t.draws = s.draws + 1 ∧ t.pc = s.pc + 2#16 ∧
      (x ≠ vf → t.reg vf = s.reg vf)

/-! ## Index register and memory -/

/-- 42_index_memory R111. -/
def Obligations.LdILoadsAddress : Prop :=
  ∀ (nnn : BitVec 12) (s : State),
    ∃ t, exec (.ldI nnn) s = .next t ∧ t.i.toNat = nnn.toNat ∧ t.i.toNat ≤ 0x0FFF ∧ t.pc = s.pc + 2#16 ∧
      t.reg vf = s.reg vf

/-- `ADD I, Vx` modulo 65536 with no flag (decisions D12, D23); `LD F, Vx` multiplies the whole byte by 5 (derived in
42_index_memory from the formula without a mask). -/
def Obligations.IndexArithmetic : Prop :=
  ∀ (x : Reg) (s : State),
    (∃ t, exec (.addI x) s = .next t ∧ t.i.toNat = (s.i.toNat + (s.reg x).toNat) % 65536 ∧
      t.pc = s.pc + 2#16 ∧ t.reg vf = s.reg vf) ∧
    (∃ t, exec (.ldF x) s = .next t ∧ t.i.toNat = (s.reg x).toNat * 5 ∧ t.pc = s.pc + 2#16 ∧ t.reg vf = s.reg vf)

/-- `LD B, Vx`: hundreds, tens, ones at `I`, `I + 1`, `I + 2`; out of range it faults and writes nothing (42_index_memory
R114; the fault is decision D5). -/
def Obligations.LdBStoresDecimalDigits : Prop :=
  ∀ (x : Reg) (s : State),
    (s.i.toNat + 2 ≤ 0xFFF → ∃ t, exec (.ldB x) s = .next t ∧
      (t.byte s.i.toNat).toNat = (s.reg x).toNat / 100 ∧
      (t.byte (s.i.toNat + 1)).toNat = (s.reg x).toNat / 10 % 10 ∧
      (t.byte (s.i.toNat + 2)).toNat = (s.reg x).toNat % 10 ∧
      t.i = s.i ∧ t.reg vf = s.reg vf ∧ t.pc = s.pc + 2#16) ∧
    (0xFFF < s.i.toNat + 2 → exec (.ldB x) s = .fault (.addressOutOfRange (max s.i.toNat 0x1000)))

/-- `LD [I], Vx`: `V0` to `Vx` at `I` to `I + x`, `I` unchanged (42_index_memory, LD [I]; derived there); out of range it
faults before anything is written (decision D5). -/
def Obligations.LdMemVxStoresRegisters : Prop :=
  ∀ (x : Reg) (s : State),
    (s.i.toNat + x.val ≤ 0xFFF → ∃ t, exec (.ldMemVx x) s = .next t ∧
      (∀ r : Reg, r ≤ x → t.byte (s.i.toNat + r.val) = s.reg r) ∧
      t.i = s.i ∧ t.pc = s.pc + 2#16 ∧ t.reg vf = s.reg vf) ∧
    (0xFFF < s.i.toNat + x.val → exec (.ldMemVx x) s = .fault (.addressOutOfRange (max s.i.toNat 0x1000)))

/-- `LD Vx, [I]`: the bytes at `I` to `I + x` into `V0` to `Vx`, the registers above kept, `I` unchanged (42_index_memory,
LD Vx,[I]; derived there); out of range it faults before a register is loaded (decision D5). -/
def Obligations.LdVxMemLoadsRegisters : Prop :=
  ∀ (x : Reg) (s : State),
    (s.i.toNat + x.val ≤ 0xFFF → ∃ t, exec (.ldVxMem x) s = .next t ∧
      (∀ r : Reg, r ≤ x → t.reg r = s.byte (s.i.toNat + r.val)) ∧
      (∀ r : Reg, x < r → t.reg r = s.reg r) ∧ t.i = s.i ∧ t.pc = s.pc + 2#16) ∧
    (0xFFF < s.i.toNat + x.val → exec (.ldVxMem x) s = .fault (.addressOutOfRange (max s.i.toNat 0x1000)))

/-- What `LD [I], Vx` stored, `LD Vx, [I]` brings back, in any later state with the same `I` and the same memory. -/
def Obligations.LoadBringsBackStoredRegisters : Prop :=
  ∀ (x : Reg) (s t u : State), exec (.ldMemVx x) s = .next t → u.i = s.i → (∀ a, u.byte a = t.byte a) →
    ∃ w, exec (.ldVxMem x) u = .next w ∧ (∀ r : Reg, r ≤ x → w.reg r = s.reg r) ∧
      ∀ r : Reg, x < r → w.reg r = u.reg r

/-! ## Display -/

/-- 43_display R121: every pixel off, `pc + 2`, and no other state changes. -/
def Obligations.ClsClearsEveryPixel : Prop :=
  ∀ s : State, ∃ t, exec .cls s = .next t ∧ (∀ p, p < 2048 → t.pixel p = false) ∧ t.pc = s.pc + 2#16 ∧
    KeepsAllBut [.fb, .pc] s t

/-- `DRW Vx, Vy, n`: a pixel is inverted exactly when a 1 bit of the sprite lands on it, coordinates wrapping; `VF` is 1
exactly when such a pixel was on, else 0; an empty sprite never faults, a sprite above 0xFFF always does, with nothing
written (43_display, DRW; the order of clearing `VF` and sampling is decision D15, the fault decision D5). -/
def Obligations.DrwXorsSprite : Prop :=
  ∀ (x y : Reg) (n : BitVec 4) (s : State),
    (n = 0#4 ∨ s.i.toNat + n.toNat - 1 ≤ 0xFFF → ∃ t, exec (.drw x y n) s = .next t ∧
      (∀ px < 64, ∀ py < 32,
        t.pixel (py * 64 + px) = (s.pixel (py * 64 + px) ^^ spriteBit s x y n.toNat px py)) ∧
      ((∃ px < 64, ∃ py < 32, s.pixel (py * 64 + px) = true ∧ spriteBit s x y n.toNat px py = true) →
        t.reg vf = 1#8) ∧
      ((¬ ∃ px < 64, ∃ py < 32, s.pixel (py * 64 + px) = true ∧ spriteBit s x y n.toNat px py = true) →
        t.reg vf = 0#8) ∧
      t.i = s.i ∧ t.pc = s.pc + 2#16) ∧
    (n ≠ 0#4 → 0xFFF < s.i.toNat + n.toNat - 1 →
      exec (.drw x y n) s = .fault (.addressOutOfRange (max s.i.toNat 0x1000)))

/-- Drawing the same sprite twice restores the framebuffer, and the second draw collides exactly when a 1 bit of the sprite
landed on a pixel that was off before the first (43_display DRW (h), derived there; 90_conflicts C10). -/
def Obligations.DrawingTwiceRestoresFramebuffer : Prop :=
  ∀ (x y : Reg) (n : BitVec 4) (s t : State), x ≠ vf → y ≠ vf → exec (.drw x y n) s = .next t →
    ∃ u, exec (.drw x y n) t = .next u ∧ (∀ p < 2048, u.pixel p = s.pixel p) ∧
      (u.reg vf = 1#8 ↔ ∃ px < 64, ∃ py < 32, s.pixel (py * 64 + px) = false ∧ spriteBit s x y n.toNat px py = true)

/-- 43_display R123: nothing but `CLS`, `DRW` and reset changes the framebuffer, and a program learns nothing of it but
through the `VF` of `DRW`: two states that differ only in the framebuffer have the same outcome of every instruction, but
for the framebuffer and, after `DRW`, `VF`. -/
def Obligations.FramebufferSeenOnlyThroughCollision : Prop :=
  (∀ (e : Event) (s t : State), hostEvent e s = .next t → (∀ o, e ≠ .reset o) →
    (e = .step → ∀ i, fetchDecode s = .ok i → i ≠ .cls ∧ ∀ x y n, i ≠ .drw x y n) → ∀ p, t.pixel p = s.pixel p) ∧
  (∀ (i : Instr) (s : State) (fb : Framebuffer),
    (∀ t, exec i s = .next t → ∃ u, exec i (s.setFb fb) = .next u ∧ KeepsAllBut [.regs, .fb] t u ∧
      KeepsRegsBut (fun r => r = vf ∧ ∃ x y n, i = .drw x y n) t u) ∧
    (∀ f, exec i s = .fault f → exec i (s.setFb fb) = .fault f))

/-! ## Keypad and timers -/

/-- The key skips test the whole value of `Vx` against the held keys and change no key (44_keypad_timers R131, R132; that a
value above 15 is not reduced is the inference R130 marks as derived). -/
def Obligations.KeySkipsTestHeldKey : Prop :=
  ∀ (x : Reg) (s : State),
    (∃ t, exec (.skp x) s = .next t ∧ t.keys = s.keys ∧ t.reg vf = s.reg vf ∧
      (Held s (s.reg x).toNat → t.pc = s.pc + 4#16) ∧ (¬ Held s (s.reg x).toNat → t.pc = s.pc + 2#16)) ∧
    (∃ t, exec (.sknp x) s = .next t ∧ t.keys = s.keys ∧ t.reg vf = s.reg vf ∧
      (¬ Held s (s.reg x).toNat → t.pc = s.pc + 4#16) ∧ (Held s (s.reg x).toNat → t.pc = s.pc + 2#16))

/-- 44_keypad_timers R133, R135: `LD Vx, DT` reads the delay timer without changing it, `LD DT, Vx` sets it; between the two
only `Tick` (and a reset) changes it, by one down, so it never rises; and no instruction reads `ST`. -/
def Obligations.DelayTimerReadAndWrite : Prop :=
  (∀ (x : Reg) (s : State),
    (∃ t, exec (.ldVxDt x) s = .next t ∧ t.reg x = s.dt ∧ t.dt = s.dt ∧ t.pc = s.pc + 2#16 ∧
      (x ≠ vf → t.reg vf = s.reg vf)) ∧
    (∃ t, exec (.ldDtVx x) s = .next t ∧ t.dt = s.reg x ∧ t.pc = s.pc + 2#16 ∧ t.reg vf = s.reg vf)) ∧
  (∀ (e : Event) (s t : State), hostEvent e s = .next t → (∀ o, e ≠ .reset o) →
    (e = .step → ∀ x, fetchDecode s ≠ .ok (.ldDtVx x)) →
    (e = .tick → t.dt.toNat = s.dt.toNat - 1) ∧ (e ≠ .tick → t.dt = s.dt)) ∧
  (∀ (i : Instr) (s t : State) (b : Byte), exec i s = .next t → exec i (s.setSt b) = .next (t.setSt b))

/-- `LD Vx, K`: with no key held the step is `Ok` and changes nothing; else `Vx` takes the number of a held key, the lowest
one under `KEY_SELECT = lowest` (44_keypad_timers, LD Vx,K; decisions D9, D20). -/
def Obligations.KeyWaitTakesHeldKey : Prop :=
  ∀ (x : Reg) (s : State),
    ((∀ k : Key, s.keys.getLsbD k.val = false) → exec (.ldVxK x) s = .next s) ∧
    ((∃ k : Key, s.keys.getLsbD k.val = true) → ∃ t, exec (.ldVxK x) s = .next t ∧ t.pc = s.pc + 2#16 ∧
      ∃ k : Key, s.keys.getLsbD k.val = true ∧ (t.reg x).toNat = k.val ∧
        (s.params.keySelect = .lowest → ∀ j : Key, j < k → s.keys.getLsbD j.val = false))

/-- `LD ST, Vx`: exactly one `Beep`, whatever `Vx` is; `ST` is not written (44_keypad_timers, LD ST; decision D14). That a
`Beep` counts up `beeps` is the model's choice, log row 8. -/
def Obligations.LdStEmitsOneBeep : Prop :=
  ∀ (x : Reg) (s : State),
    ∃ t, exec (.ldStVx x) s = .next t ∧ t.beeps = s.beeps + 1 ∧ t.st = s.st ∧ t.pc = s.pc + 2#16 ∧
      ∀ b, exec (.ldStVx x) (s.setReg x b) = .next (t.setReg x b)

/-! ## Host events -/

/-- 60_exceptions R148: each timer falls by 1 and stops at 0; nothing else changes. -/
def Obligations.TickCountsDown : Prop :=
  ∀ s : State, ∃ t, hostEvent .tick s = .next t ∧ t.dt.toNat = s.dt.toNat - 1 ∧ t.st.toNat = s.st.toNat - 1 ∧
    KeepsAllBut [.dt, .st] s t

/-- `KeyDown(k)` and `KeyUp(k)` set and clear `K[k]`, change nothing else, and are idempotent (60_exceptions, key events;
that `k` is one of sixteen is decision D2). -/
def Obligations.KeyEventsSetOneKey : Prop :=
  ∀ (k : Key) (s : State),
    (∃ t, hostEvent (.keyDown k) s = .next t ∧ KeepsAllBut [.keys] s t ∧
      (∀ j : Key, t.keys.getLsbD j.val = (decide (j = k) || s.keys.getLsbD j.val)) ∧
      (s.keys.getLsbD k.val = true → t = s)) ∧
    (∃ t, hostEvent (.keyUp k) s = .next t ∧ KeepsAllBut [.keys] s t ∧
      (∀ j : Key, t.keys.getLsbD j.val = (!decide (j = k) && s.keys.getLsbD j.val)) ∧
      (s.keys.getLsbD k.val = false → t = s))

/-- 20_memory R42: `Load` copies the bytes to increasing addresses and changes nothing else; without a start address it
copies from 0x200 up. -/
def Obligations.LoadCopiesBytes : Prop :=
  (∀ (bytes : List Byte) (start : Nat) (s : State), start + bytes.length ≤ 4096 →
    ∃ t, hostEvent (.load bytes start) s = .next t ∧
      (∀ (j : Nat) (b : Byte), bytes[j]? = some b → t.byte (start + j) = b) ∧
      (∀ a, a < start ∨ start + bytes.length ≤ a → t.byte a = s.byte a) ∧ KeepsAllBut [.mem] s t) ∧
  (∀ (bytes : List Byte) (s : State), bytes.length ≤ 3584 →
    ∃ t, hostEvent (.load bytes) s = .next t ∧
      (∀ (j : Nat) (b : Byte), bytes[j]? = some b → t.byte (0x200 + j) = b) ∧
      (∀ a, a < 0x200 ∨ 0x200 + bytes.length ≤ a → t.byte a = s.byte a) ∧ KeepsAllBut [.mem] s t)

/-- 70_reset_and_hazards R162: after every reset, whatever the options, the font region holds the font. -/
def Obligations.ResetWritesFontLast : Prop :=
  ∀ (o : ResetOptions) (s t : State), hostEvent (.reset o) s = .next t →
    ∀ (j : Nat) (h : j < 80), t.byte j = s.params.font[j]

/-- `Reset` with no options gives every field its reset value (10_state section 7; all but `pc` and memory are decision
D1, log row 9). The parameters and the model's two counters stay (log rows 1, 8); every other field is that of `State.reset`,
memory as the very list, in the model's own canonical form (log row 10). -/
def Obligations.ResetGivesDefaults : Prop :=
  ∀ s : State,
    (∃ t, hostEvent (.reset {}) s = .next t ∧ (∀ r : Reg, t.reg r = 0x00#8) ∧ t.pc = 0x0200#16 ∧ t.i = 0x0000#16 ∧
      t.stack = [] ∧ t.dt = 0x00#8 ∧ t.st = 0x00#8 ∧ (∀ (j : Nat) (h : j < 80), t.byte j = s.params.font[j]) ∧
      (∀ a, 0x050 ≤ a → a ≤ 0xFFF → t.byte a = 0x00#8) ∧ (∀ p, t.pixel p = false) ∧
      (∀ k : Key, t.keys.getLsbD k.val = false) ∧ t.params = s.params ∧ t.draws = s.draws ∧ t.beeps = s.beeps) ∧
    hostEvent (.reset {}) s =
      .next { State.reset with params := s.params, draws := s.draws, beeps := s.beeps }

/-- Each legal override is the field's value after the reset, memory overrides outside the font region among them, the last
one of an address counting; an option outside its field's range has no move (decision D22). -/
def Obligations.ResetAppliesOverrides : Prop :=
  ∀ (o : ResetOptions) (s : State),
    ((∀ d es, s.params.stackDepth = some d → o.stack = some es → es.length ≤ d) → (∀ c ∈ o.mem, c.1 ≤ 0xFFF) →
      ∃ t, hostEvent (.reset o) s = .next t ∧ (∀ r : Reg, t.reg r = (o.v[r]).getD 0x00#8) ∧
        t.pc = o.pc.getD 0x0200#16 ∧ t.i = o.i.getD 0x0000#16 ∧ t.stack = o.stack.getD [] ∧
        t.dt = o.dt.getD 0x00#8 ∧ t.st = o.st.getD 0x00#8 ∧ t.keys = o.keys.getD 0#16 ∧
        (∀ fb, o.fb = some fb → t.fb = fb) ∧ (o.fb = none → ∀ p, t.pixel p = false) ∧
        (∀ a, 0x050 ≤ a → a ≤ 0xFFF →
          t.byte a = ((o.mem.reverse.find? (fun c => c.1 == a)).map Prod.snd).getD 0x00#8)) ∧
    ((∃ d es, s.params.stackDepth = some d ∧ o.stack = some es ∧ d < es.length) ∨ (∃ c ∈ o.mem, 0xFFF < c.1) →
      hostEvent (.reset o) s = .refused .resetOptionOutOfRange)

/-! ## Invariants -/

/-- The state after reset meets the invariant: canonical memory within 0x000 to 0xFFF, a stack within its depth. The
canonical form is the model's own way to write memory down (log row 10). -/
def Obligations.ResetMeetsInvariant : Prop := State.reset.Inv

/-- Every step keeps the invariant: memory stays canonical and within its 4096 bytes, and the stack within its depth. The
canonical form is the model's choice (log row 10); the bounds rest on decisions D5 and D6 (log rows 12 and 2). -/
def Obligations.StepKeepsInvariant : Prop :=
  ∀ s t : State, s.Inv → step s = .next t → t.Inv

/-- Every host event keeps the invariant, and no event changes a parameter. The canonical form of memory (log row 10) and the
parameters as a field no event changes (log row 1) are the model's choices. -/
def Obligations.EveryEventKeepsInvariant : Prop :=
  ∀ (e : Event) (s t : State), s.Inv → hostEvent e s = .next t → t.Inv ∧ t.params = s.params

/-! ## Rules of the whole machine -/

/-- Which instructions write what: `ST` and the keys none, `DT` only `LD DT, Vx`, `I` only `LD I`, `ADD I`, `LD F`, the
stack only `CALL` and `RET`, memory only `LD B` and `LD [I]`; and `ST` is read by none (10_state sections 2 to 6; that an
effect names all it changes is decision D23). -/
def Obligations.OnlyNamedInstructionsWrite : Prop :=
  ∀ (i : Instr) (s t : State), exec i s = .next t →
    t.st = s.st ∧ t.keys = s.keys ∧
    ((∀ x, i ≠ .ldDtVx x) → t.dt = s.dt) ∧
    ((∀ nnn, i ≠ .ldI nnn) → (∀ x, i ≠ .addI x ∧ i ≠ .ldF x) → t.i = s.i) ∧
    (i ≠ .ret → (∀ nnn, i ≠ .call nnn) → t.stack = s.stack) ∧
    ((∀ x, i ≠ .ldB x ∧ i ≠ .ldMemVx x) → ∀ a, t.byte a = s.byte a) ∧
    ∀ b, exec i (s.setSt b) = .next (t.setSt b)

/-- How each instruction leaves `pc` (10_state R13; `SYS` where its parameter lets it complete, decision D3, log row 5). A step
that faults leaves it unchanged; that it leaves ALL state so is 60_exceptions R147 and decision D11 (log row 24, the spec's
own choice). -/
def Obligations.PcAfterEveryInstruction : Prop :=
  (∀ (i : Instr) (s t : State), exec i s = .next t → t.pc = pcAfter s i) ∧
  (∀ (s : State) (f : Fault), step s = .fault f → deliver .step s = (s, .fault f))

/-- No step that does not fault reaches the modulus of `pc`: afterwards `pc` is at most 0x10FE or a value that lay on the
stack (10_state section 2; the modulus is decision D13). -/
def Obligations.PcBoundedOrPopped : Prop :=
  ∀ s t : State, step s = .next t → t.pc.toNat ≤ 0x10FE ∨ t.pc ∈ s.stack

/-- A step ends `Ok` or in a fault, never otherwise, and an instruction faults exactly on the causes listed (60_exceptions
section 1; two of the causes are decisions D5 and D6, `SYS` is D3); an `Ok` step emits at most one `Beep` and consumes at
most one draw (00_scope section 4), counted in the model's own fields (log rows 6 to 8). -/
def Obligations.FaultsExactlyOnListedCauses : Prop :=
  (∀ (i : Instr) (s : State),
    (∀ f, executeFault s i = some f → exec i s = .fault f) ∧
    (executeFault s i = none → ∃ t, exec i s = .next t ∧
      (t.beeps = s.beeps ∨ t.beeps = s.beeps + 1) ∧ (t.draws = s.draws ∨ t.draws = s.draws + 1))) ∧
  (∀ s : State, (∃ t, step s = .next t) ∨ (∃ f, step s = .fault f))

/-- In a state that has stopped, on a jump to itself, a step changes nothing; so it stays stopped (70_reset section 5, the
definition of decision D21). -/
def Obligations.StoppedStateStaysStopped : Prop :=
  ∀ s : State, Stopped s → step s = .next s ∧ ¬ GoesWrong s ∧ ¬ Waiting s

/-! ## Frames: what each instruction leaves unchanged (decision D23) -/

/-- The register-only instructions change `Vx` and `pc`, the flag-writing ones `VF` too, and nothing else: `SHR` and `SHL`
leave `Vy` alone whatever `y` the word carries. `RND` also counts its draw. -/
def Obligations.RegisterInstructionFrames : Prop :=
  (∀ (x : Reg) (s : State) (i : Instr),
    (∃ kk, i = .ldImm x kk ∨ i = .addImm x kk) ∨
      (∃ y, i = .ldReg x y ∨ i = .orReg x y ∨ i = .andReg x y ∨ i = .xorReg x y) ∨ i = .ldVxDt x →
    ∃ t, exec i s = .next t ∧ KeepsRegsBut (fun r => r = x) s t ∧ KeepsAllBut [.regs, .pc] s t) ∧
  (∀ (x : Reg) (s : State) (i : Instr),
    (∃ y, i = .addReg x y ∨ i = .sub x y ∨ i = .subn x y) ∨ i = .shr x ∨ i = .shl x →
    ∃ t, exec i s = .next t ∧ KeepsRegsBut (fun r => r = x ∨ r = vf) s t ∧ KeepsAllBut [.regs, .pc] s t) ∧
  (∀ (x : Reg) (kk : Byte) (s : State),
    ∃ t, exec (.rnd x kk) s = .next t ∧ KeepsRegsBut (fun r => r = x) s t ∧ KeepsAllBut [.regs, .pc, .draws] s t)

/-- The jumps and skips change `pc` alone; `CALL` and `RET` change `pc` and the stack. -/
def Obligations.ControlTransferFrames : Prop :=
  (∀ (s : State) (i : Instr),
    (∃ nnn, i = .jp nnn ∨ i = .jpV0 nnn) ∨ (∃ x kk, i = .seImm x kk ∨ i = .sneImm x kk) ∨
      (∃ x y, i = .seReg x y ∨ i = .sneReg x y) ∨ (∃ x, i = .skp x ∨ i = .sknp x) →
    ∃ t, exec i s = .next t ∧ KeepsAllBut [.pc] s t) ∧
  (∀ (s t : State) (i : Instr), i = .ret ∨ (∃ nnn, i = .call nnn) → exec i s = .next t →
    KeepsAllBut [.pc, .stack] s t)

/-- The index instructions change `I` and `pc` alone. -/
def Obligations.IndexInstructionFrames : Prop :=
  ∀ (s : State) (i : Instr), (∃ nnn, i = .ldI nnn) ∨ (∃ x, i = .addI x ∨ i = .ldF x) →
    ∃ t, exec i s = .next t ∧ KeepsAllBut [.i, .pc] s t

/-- The block moves: a store changes `pc` and the bytes from `I` up, 3 of them for `LD B` and `x + 1` for `LD [I]`, every
other byte reading as before; a load changes `pc` and `V0` to `Vx`, and no byte. -/
def Obligations.MemoryInstructionFrames : Prop :=
  ∀ (x : Reg) (s t : State),
    (exec (.ldB x) s = .next t → KeepsAllBut [.mem, .pc] s t ∧
      ∀ a, a < s.i.toNat ∨ s.i.toNat + 3 ≤ a → t.byte a = s.byte a) ∧
    (exec (.ldMemVx x) s = .next t → KeepsAllBut [.mem, .pc] s t ∧
      ∀ a, a < s.i.toNat ∨ s.i.toNat + x.val + 1 ≤ a → t.byte a = s.byte a) ∧
    (exec (.ldVxMem x) s = .next t → KeepsAllBut [.regs, .pc] s t ∧ KeepsRegsBut (fun r => r ≤ x) s t)

/-- `DRW` changes pixels, `VF` and `pc`; `LD DT` changes `DT` and `pc`; `LD ST` emits its `Beep` and advances; `LD Vx, K`
changes `Vx` and `pc`, and counts a free choice only under `KEY_SELECT = any`. -/
def Obligations.DeviceInstructionFrames : Prop :=
  (∀ (x y : Reg) (n : BitVec 4) (s t : State), exec (.drw x y n) s = .next t →
    KeepsRegsBut (fun r => r = vf) s t ∧ KeepsAllBut [.regs, .fb, .pc] s t) ∧
  (∀ (x : Reg) (s : State), ∃ t, exec (.ldDtVx x) s = .next t ∧ KeepsAllBut [.dt, .pc] s t) ∧
  (∀ (x : Reg) (s : State), ∃ t, exec (.ldStVx x) s = .next t ∧ KeepsAllBut [.beeps, .pc] s t) ∧
  (∀ (x : Reg) (s : State), ∃ t, exec (.ldVxK x) s = .next t ∧ KeepsRegsBut (fun r => r = x) s t ∧
    KeepsAllBut [.regs, .pc, .draws] s t ∧ (s.params.keySelect = .lowest → t.draws = s.draws))
end

