-- ==== Sys2Proof/Laws/Decode.lean ====
section
/-! SUPPORT. The operand fields of a packed word are the fields it was packed from (30_encoding R52, R53), and the two
bytes of a word give the word back (20_memory R32). -/

namespace Sys2Proof

variable (g : BitVec 4) (nnn : BitVec 12) (x y : Reg) (kk : Byte) (n : BitVec 4)

@[simp] theorem opGroup_packNNN : opGroup (packNNN g nnn) = g := by
  apply BitVec.eq_of_getLsbD_eq
  intro k hk
  simp only [opGroup, packNNN, BitVec.getLsbD_extractLsb', BitVec.getLsbD_append]
  have : ¬ 12 + k < 12 := by omega
  simp [hk, this]

@[simp] theorem opNNN_packNNN : opNNN (packNNN g nnn) = nnn := by
  apply BitVec.eq_of_getLsbD_eq
  intro k hk
  simp only [opNNN, packNNN, BitVec.getLsbD_extractLsb', BitVec.getLsbD_append]
  simp [hk]

theorem packXKK_eq : packXKK g x kk = packNNN g (BitVec.ofFin x ++ kk : BitVec 12) := rfl

theorem packXYN_eq : packXYN g x y n = packXKK g x (BitVec.ofFin y ++ n : BitVec 8) := rfl

@[simp] theorem opGroup_packXKK : opGroup (packXKK g x kk) = g := by rw [packXKK_eq, opGroup_packNNN]

@[simp] theorem opX_packXKK : opX (packXKK g x kk) = x := by
  suffices h : (packXKK g x kk).extractLsb' 8 4 = BitVec.ofFin x by rw [opX, h]
  apply BitVec.eq_of_getLsbD_eq
  intro k hk
  simp only [packXKK, BitVec.getLsbD_extractLsb', BitVec.getLsbD_append]
  have h1 : 8 + k < 12 := by omega
  have h2 : ¬ 8 + k < 8 := by omega
  simp [hk, h1, h2]

@[simp] theorem opKK_packXKK : opKK (packXKK g x kk) = kk := by
  apply BitVec.eq_of_getLsbD_eq
  intro k hk
  simp only [opKK, packXKK, BitVec.getLsbD_extractLsb', BitVec.getLsbD_append]
  have h1 : k < 12 := by omega
  simp [hk, h1]

@[simp] theorem opGroup_packXYN : opGroup (packXYN g x y n) = g := by rw [packXYN_eq, opGroup_packXKK]

@[simp] theorem opX_packXYN : opX (packXYN g x y n) = x := by rw [packXYN_eq, opX_packXKK]

theorem opKK_packXYN : opKK (packXYN g x y n) = (BitVec.ofFin y ++ n : BitVec 8) := by rw [packXYN_eq, opKK_packXKK]

/-- `kk = y ++ n` (30_encoding R52). -/
theorem opY_eq_opKK (op : Word) : opY op = ((opKK op).extractLsb' 4 4).toFin := by
  have : op.extractLsb' 4 4 = (opKK op).extractLsb' 4 4 := by
    apply BitVec.eq_of_getLsbD_eq
    intro k hk
    simp [opKK, hk]
  rw [opY, this]

theorem opN_eq_opKK (op : Word) : opN op = (opKK op).extractLsb' 0 4 := by
  apply BitVec.eq_of_getLsbD_eq
  intro k hk
  simp [opKK, opN, hk]

@[simp] theorem opY_packXYN : opY (packXYN g x y n) = y := by
  rw [opY_eq_opKK, opKK_packXYN]
  suffices h : (BitVec.ofFin y ++ n : BitVec 8).extractLsb' 4 4 = BitVec.ofFin y by rw [h]
  apply BitVec.eq_of_getLsbD_eq
  intro k hk
  simp only [BitVec.getLsbD_extractLsb', BitVec.getLsbD_append]
  have h2 : ¬ 4 + k < 4 := by omega
  simp [hk, h2]

@[simp] theorem opN_packXYN : opN (packXYN g x y n) = n := by
  rw [opN_eq_opKK, opKK_packXYN]
  apply BitVec.eq_of_getLsbD_eq
  intro k hk
  simp only [BitVec.getLsbD_extractLsb', BitVec.getLsbD_append]
  simp [hk]

/-- Every word is its group and its low twelve bits. -/
theorem packNNN_fields (op : Word) : packNNN (opGroup op) (opNNN op) = op := by
  apply BitVec.eq_of_getLsbD_eq
  intro k hk
  simp only [packNNN, opGroup, opNNN, BitVec.getLsbD_append, BitVec.getLsbD_extractLsb']
  by_cases h : k < 12
  · simp [h]
  · have h1 : k - 12 < 4 := by omega
    have h2 : 12 + (k - 12) = k := by omega
    simp [h, h1, h2]

/-- Every word is its group, its `x` and its low byte. -/
theorem packXKK_fields (op : Word) : packXKK (opGroup op) (opX op) (opKK op) = op := by
  rw [packXKK_eq]
  suffices h : (BitVec.ofFin (opX op) ++ opKK op : BitVec 12) = opNNN op by rw [h, packNNN_fields]
  apply BitVec.eq_of_getLsbD_eq
  intro k hk
  simp only [opX, opKK, opNNN, BitVec.ofFin_toFin, BitVec.getLsbD_append, BitVec.getLsbD_extractLsb']
  by_cases h : k < 8
  · simp [h, hk]
  · have h1 : k - 8 < 4 := by omega
    have h2 : 8 + (k - 8) = k := by omega
    simp [h, h1, h2, hk]

/-- Every word is its four nibbles. -/
theorem packXYN_fields (op : Word) : packXYN (opGroup op) (opX op) (opY op) (opN op) = op := by
  rw [packXYN_eq]
  suffices h : (BitVec.ofFin (opY op) ++ opN op : BitVec 8) = opKK op by rw [h, packXKK_fields]
  apply BitVec.eq_of_getLsbD_eq
  intro k hk
  simp only [opY, opN, opKK, BitVec.ofFin_toFin, BitVec.getLsbD_append, BitVec.getLsbD_extractLsb']
  by_cases h : k < 4
  · simp [h, hk]
  · have h1 : k - 4 < 4 := by omega
    have h2 : 4 + (k - 4) = k := by omega
    simp [h, h1, h2, hk]

/-- The bytes of a word, put together again, are the word (20_memory R32). -/
@[simp] theorem wordOfBytes_bytes (op : Word) : wordOfBytes (highByte op) (lowByte op) = op := by
  apply BitVec.eq_of_getLsbD_eq
  intro k hk
  simp only [wordOfBytes, highByte, lowByte, BitVec.getLsbD_append, BitVec.getLsbD_extractLsb']
  by_cases h : k < 8
  · simp [h]
  · have h1 : k - 8 < 8 := by omega
    have h2 : 8 + (k - 8) = k := by omega
    simp [h, h1, h2]

@[simp] theorem highByte_wordOfBytes (hi lo : Byte) : highByte (wordOfBytes hi lo) = hi := by
  apply BitVec.eq_of_getLsbD_eq
  intro k hk
  simp only [wordOfBytes, highByte, BitVec.getLsbD_append, BitVec.getLsbD_extractLsb']
  have : ¬ 8 + k < 8 := by omega
  simp [hk, this]

@[simp] theorem lowByte_wordOfBytes (hi lo : Byte) : lowByte (wordOfBytes hi lo) = lo := by
  apply BitVec.eq_of_getLsbD_eq
  intro k hk
  simp only [wordOfBytes, lowByte, BitVec.getLsbD_append, BitVec.getLsbD_extractLsb']
  simp [hk]

end Sys2Proof
end

