-- ==== Sys2Proof/Laws/State.lean ====
section
/-! SUPPORT. What each update of the state does to each field: one lemma per field per update, true by rfl, so that no later
proof unfolds a record update; and the same for the observers `reg`, `byte`, `pixel`. -/

namespace Sys2Proof.Machine

variable (s : State)

/-! ## setReg -/

@[simp] theorem State.setReg_v (x : Reg) (b : Byte) : (s.setReg x b).v = s.v.set x b := rfl
@[simp] theorem State.setReg_pc (x : Reg) (b : Byte) : (s.setReg x b).pc = s.pc := rfl
@[simp] theorem State.setReg_i (x : Reg) (b : Byte) : (s.setReg x b).i = s.i := rfl
@[simp] theorem State.setReg_stack (x : Reg) (b : Byte) : (s.setReg x b).stack = s.stack := rfl
@[simp] theorem State.setReg_dt (x : Reg) (b : Byte) : (s.setReg x b).dt = s.dt := rfl
@[simp] theorem State.setReg_st (x : Reg) (b : Byte) : (s.setReg x b).st = s.st := rfl
@[simp] theorem State.setReg_mem (x : Reg) (b : Byte) : (s.setReg x b).mem = s.mem := rfl
@[simp] theorem State.setReg_fb (x : Reg) (b : Byte) : (s.setReg x b).fb = s.fb := rfl
@[simp] theorem State.setReg_keys (x : Reg) (b : Byte) : (s.setReg x b).keys = s.keys := rfl
@[simp] theorem State.setReg_params (x : Reg) (b : Byte) : (s.setReg x b).params = s.params := rfl
@[simp] theorem State.setReg_draws (x : Reg) (b : Byte) : (s.setReg x b).draws = s.draws := rfl
@[simp] theorem State.setReg_beeps (x : Reg) (b : Byte) : (s.setReg x b).beeps = s.beeps := rfl
@[simp] theorem State.setReg_byte (x : Reg) (b : Byte) (a : Nat) : (s.setReg x b).byte a = s.byte a := rfl
@[simp] theorem State.setReg_pixel (x : Reg) (b : Byte) (p : Nat) : (s.setReg x b).pixel p = s.pixel p := rfl

/-! ## setRegs -/

@[simp] theorem State.setRegs_v (f : Reg → Byte) : (s.setRegs f).v = Vector.ofFn f := rfl
@[simp] theorem State.setRegs_pc (f : Reg → Byte) : (s.setRegs f).pc = s.pc := rfl
@[simp] theorem State.setRegs_i (f : Reg → Byte) : (s.setRegs f).i = s.i := rfl
@[simp] theorem State.setRegs_stack (f : Reg → Byte) : (s.setRegs f).stack = s.stack := rfl
@[simp] theorem State.setRegs_dt (f : Reg → Byte) : (s.setRegs f).dt = s.dt := rfl
@[simp] theorem State.setRegs_st (f : Reg → Byte) : (s.setRegs f).st = s.st := rfl
@[simp] theorem State.setRegs_mem (f : Reg → Byte) : (s.setRegs f).mem = s.mem := rfl
@[simp] theorem State.setRegs_fb (f : Reg → Byte) : (s.setRegs f).fb = s.fb := rfl
@[simp] theorem State.setRegs_keys (f : Reg → Byte) : (s.setRegs f).keys = s.keys := rfl
@[simp] theorem State.setRegs_params (f : Reg → Byte) : (s.setRegs f).params = s.params := rfl
@[simp] theorem State.setRegs_draws (f : Reg → Byte) : (s.setRegs f).draws = s.draws := rfl
@[simp] theorem State.setRegs_beeps (f : Reg → Byte) : (s.setRegs f).beeps = s.beeps := rfl
@[simp] theorem State.setRegs_byte (f : Reg → Byte) (a : Nat) : (s.setRegs f).byte a = s.byte a := rfl
@[simp] theorem State.setRegs_pixel (f : Reg → Byte) (p : Nat) : (s.setRegs f).pixel p = s.pixel p := rfl

/-! ## setPc -/

@[simp] theorem State.setPc_v (w : Word) : (s.setPc w).v = s.v := rfl
@[simp] theorem State.setPc_pc (w : Word) : (s.setPc w).pc = w := rfl
@[simp] theorem State.setPc_i (w : Word) : (s.setPc w).i = s.i := rfl
@[simp] theorem State.setPc_stack (w : Word) : (s.setPc w).stack = s.stack := rfl
@[simp] theorem State.setPc_dt (w : Word) : (s.setPc w).dt = s.dt := rfl
@[simp] theorem State.setPc_st (w : Word) : (s.setPc w).st = s.st := rfl
@[simp] theorem State.setPc_mem (w : Word) : (s.setPc w).mem = s.mem := rfl
@[simp] theorem State.setPc_fb (w : Word) : (s.setPc w).fb = s.fb := rfl
@[simp] theorem State.setPc_keys (w : Word) : (s.setPc w).keys = s.keys := rfl
@[simp] theorem State.setPc_params (w : Word) : (s.setPc w).params = s.params := rfl
@[simp] theorem State.setPc_draws (w : Word) : (s.setPc w).draws = s.draws := rfl
@[simp] theorem State.setPc_beeps (w : Word) : (s.setPc w).beeps = s.beeps := rfl
@[simp] theorem State.setPc_reg (w : Word) (r : Reg) : (s.setPc w).reg r = s.reg r := rfl
@[simp] theorem State.setPc_byte (w : Word) (a : Nat) : (s.setPc w).byte a = s.byte a := rfl
@[simp] theorem State.setPc_pixel (w : Word) (p : Nat) : (s.setPc w).pixel p = s.pixel p := rfl

/-! ## advance -/

@[simp] theorem State.advance_v : s.advance.v = s.v := rfl
@[simp] theorem State.advance_pc : s.advance.pc = s.pc + 2#16 := rfl
@[simp] theorem State.advance_i : s.advance.i = s.i := rfl
@[simp] theorem State.advance_stack : s.advance.stack = s.stack := rfl
@[simp] theorem State.advance_dt : s.advance.dt = s.dt := rfl
@[simp] theorem State.advance_st : s.advance.st = s.st := rfl
@[simp] theorem State.advance_mem : s.advance.mem = s.mem := rfl
@[simp] theorem State.advance_fb : s.advance.fb = s.fb := rfl
@[simp] theorem State.advance_keys : s.advance.keys = s.keys := rfl
@[simp] theorem State.advance_params : s.advance.params = s.params := rfl
@[simp] theorem State.advance_draws : s.advance.draws = s.draws := rfl
@[simp] theorem State.advance_beeps : s.advance.beeps = s.beeps := rfl
@[simp] theorem State.advance_reg (r : Reg) : s.advance.reg r = s.reg r := rfl
@[simp] theorem State.advance_byte (a : Nat) : s.advance.byte a = s.byte a := rfl
@[simp] theorem State.advance_pixel (p : Nat) : s.advance.pixel p = s.pixel p := rfl

/-! ## skip -/

@[simp] theorem State.skip_v : s.skip.v = s.v := rfl
@[simp] theorem State.skip_pc : s.skip.pc = s.pc + 4#16 := rfl
@[simp] theorem State.skip_i : s.skip.i = s.i := rfl
@[simp] theorem State.skip_stack : s.skip.stack = s.stack := rfl
@[simp] theorem State.skip_dt : s.skip.dt = s.dt := rfl
@[simp] theorem State.skip_st : s.skip.st = s.st := rfl
@[simp] theorem State.skip_mem : s.skip.mem = s.mem := rfl
@[simp] theorem State.skip_fb : s.skip.fb = s.fb := rfl
@[simp] theorem State.skip_keys : s.skip.keys = s.keys := rfl
@[simp] theorem State.skip_params : s.skip.params = s.params := rfl
@[simp] theorem State.skip_draws : s.skip.draws = s.draws := rfl
@[simp] theorem State.skip_beeps : s.skip.beeps = s.beeps := rfl
@[simp] theorem State.skip_reg (r : Reg) : s.skip.reg r = s.reg r := rfl
@[simp] theorem State.skip_byte (a : Nat) : s.skip.byte a = s.byte a := rfl
@[simp] theorem State.skip_pixel (p : Nat) : s.skip.pixel p = s.pixel p := rfl

/-! ## setI -/

@[simp] theorem State.setI_v (w : Word) : (s.setI w).v = s.v := rfl
@[simp] theorem State.setI_pc (w : Word) : (s.setI w).pc = s.pc := rfl
@[simp] theorem State.setI_i (w : Word) : (s.setI w).i = w := rfl
@[simp] theorem State.setI_stack (w : Word) : (s.setI w).stack = s.stack := rfl
@[simp] theorem State.setI_dt (w : Word) : (s.setI w).dt = s.dt := rfl
@[simp] theorem State.setI_st (w : Word) : (s.setI w).st = s.st := rfl
@[simp] theorem State.setI_mem (w : Word) : (s.setI w).mem = s.mem := rfl
@[simp] theorem State.setI_fb (w : Word) : (s.setI w).fb = s.fb := rfl
@[simp] theorem State.setI_keys (w : Word) : (s.setI w).keys = s.keys := rfl
@[simp] theorem State.setI_params (w : Word) : (s.setI w).params = s.params := rfl
@[simp] theorem State.setI_draws (w : Word) : (s.setI w).draws = s.draws := rfl
@[simp] theorem State.setI_beeps (w : Word) : (s.setI w).beeps = s.beeps := rfl
@[simp] theorem State.setI_reg (w : Word) (r : Reg) : (s.setI w).reg r = s.reg r := rfl
@[simp] theorem State.setI_byte (w : Word) (a : Nat) : (s.setI w).byte a = s.byte a := rfl
@[simp] theorem State.setI_pixel (w : Word) (p : Nat) : (s.setI w).pixel p = s.pixel p := rfl

/-! ## setDt -/

@[simp] theorem State.setDt_v (b : Byte) : (s.setDt b).v = s.v := rfl
@[simp] theorem State.setDt_pc (b : Byte) : (s.setDt b).pc = s.pc := rfl
@[simp] theorem State.setDt_i (b : Byte) : (s.setDt b).i = s.i := rfl
@[simp] theorem State.setDt_stack (b : Byte) : (s.setDt b).stack = s.stack := rfl
@[simp] theorem State.setDt_dt (b : Byte) : (s.setDt b).dt = b := rfl
@[simp] theorem State.setDt_st (b : Byte) : (s.setDt b).st = s.st := rfl
@[simp] theorem State.setDt_mem (b : Byte) : (s.setDt b).mem = s.mem := rfl
@[simp] theorem State.setDt_fb (b : Byte) : (s.setDt b).fb = s.fb := rfl
@[simp] theorem State.setDt_keys (b : Byte) : (s.setDt b).keys = s.keys := rfl
@[simp] theorem State.setDt_params (b : Byte) : (s.setDt b).params = s.params := rfl
@[simp] theorem State.setDt_draws (b : Byte) : (s.setDt b).draws = s.draws := rfl
@[simp] theorem State.setDt_beeps (b : Byte) : (s.setDt b).beeps = s.beeps := rfl
@[simp] theorem State.setDt_reg (b : Byte) (r : Reg) : (s.setDt b).reg r = s.reg r := rfl
@[simp] theorem State.setDt_byte (b : Byte) (a : Nat) : (s.setDt b).byte a = s.byte a := rfl
@[simp] theorem State.setDt_pixel (b : Byte) (p : Nat) : (s.setDt b).pixel p = s.pixel p := rfl

/-! ## setSt -/

@[simp] theorem State.setSt_v (b : Byte) : (s.setSt b).v = s.v := rfl
@[simp] theorem State.setSt_pc (b : Byte) : (s.setSt b).pc = s.pc := rfl
@[simp] theorem State.setSt_i (b : Byte) : (s.setSt b).i = s.i := rfl
@[simp] theorem State.setSt_stack (b : Byte) : (s.setSt b).stack = s.stack := rfl
@[simp] theorem State.setSt_dt (b : Byte) : (s.setSt b).dt = s.dt := rfl
@[simp] theorem State.setSt_st (b : Byte) : (s.setSt b).st = b := rfl
@[simp] theorem State.setSt_mem (b : Byte) : (s.setSt b).mem = s.mem := rfl
@[simp] theorem State.setSt_fb (b : Byte) : (s.setSt b).fb = s.fb := rfl
@[simp] theorem State.setSt_keys (b : Byte) : (s.setSt b).keys = s.keys := rfl
@[simp] theorem State.setSt_params (b : Byte) : (s.setSt b).params = s.params := rfl
@[simp] theorem State.setSt_draws (b : Byte) : (s.setSt b).draws = s.draws := rfl
@[simp] theorem State.setSt_beeps (b : Byte) : (s.setSt b).beeps = s.beeps := rfl
@[simp] theorem State.setSt_reg (b : Byte) (r : Reg) : (s.setSt b).reg r = s.reg r := rfl
@[simp] theorem State.setSt_byte (b : Byte) (a : Nat) : (s.setSt b).byte a = s.byte a := rfl
@[simp] theorem State.setSt_pixel (b : Byte) (p : Nat) : (s.setSt b).pixel p = s.pixel p := rfl

/-! ## setStack -/

@[simp] theorem State.setStack_v (es : List Word) : (s.setStack es).v = s.v := rfl
@[simp] theorem State.setStack_pc (es : List Word) : (s.setStack es).pc = s.pc := rfl
@[simp] theorem State.setStack_i (es : List Word) : (s.setStack es).i = s.i := rfl
@[simp] theorem State.setStack_stack (es : List Word) : (s.setStack es).stack = es := rfl
@[simp] theorem State.setStack_dt (es : List Word) : (s.setStack es).dt = s.dt := rfl
@[simp] theorem State.setStack_st (es : List Word) : (s.setStack es).st = s.st := rfl
@[simp] theorem State.setStack_mem (es : List Word) : (s.setStack es).mem = s.mem := rfl
@[simp] theorem State.setStack_fb (es : List Word) : (s.setStack es).fb = s.fb := rfl
@[simp] theorem State.setStack_keys (es : List Word) : (s.setStack es).keys = s.keys := rfl
@[simp] theorem State.setStack_params (es : List Word) : (s.setStack es).params = s.params := rfl
@[simp] theorem State.setStack_draws (es : List Word) : (s.setStack es).draws = s.draws := rfl
@[simp] theorem State.setStack_beeps (es : List Word) : (s.setStack es).beeps = s.beeps := rfl
@[simp] theorem State.setStack_reg (es : List Word) (r : Reg) : (s.setStack es).reg r = s.reg r := rfl
@[simp] theorem State.setStack_byte (es : List Word) (a : Nat) : (s.setStack es).byte a = s.byte a := rfl
@[simp] theorem State.setStack_pixel (es : List Word) (p : Nat) : (s.setStack es).pixel p = s.pixel p := rfl

/-! ## setFb -/

@[simp] theorem State.setFb_v (fb : Framebuffer) : (s.setFb fb).v = s.v := rfl
@[simp] theorem State.setFb_pc (fb : Framebuffer) : (s.setFb fb).pc = s.pc := rfl
@[simp] theorem State.setFb_i (fb : Framebuffer) : (s.setFb fb).i = s.i := rfl
@[simp] theorem State.setFb_stack (fb : Framebuffer) : (s.setFb fb).stack = s.stack := rfl
@[simp] theorem State.setFb_dt (fb : Framebuffer) : (s.setFb fb).dt = s.dt := rfl
@[simp] theorem State.setFb_st (fb : Framebuffer) : (s.setFb fb).st = s.st := rfl
@[simp] theorem State.setFb_mem (fb : Framebuffer) : (s.setFb fb).mem = s.mem := rfl
@[simp] theorem State.setFb_fb (fb : Framebuffer) : (s.setFb fb).fb = fb := rfl
@[simp] theorem State.setFb_keys (fb : Framebuffer) : (s.setFb fb).keys = s.keys := rfl
@[simp] theorem State.setFb_params (fb : Framebuffer) : (s.setFb fb).params = s.params := rfl
@[simp] theorem State.setFb_draws (fb : Framebuffer) : (s.setFb fb).draws = s.draws := rfl
@[simp] theorem State.setFb_beeps (fb : Framebuffer) : (s.setFb fb).beeps = s.beeps := rfl
@[simp] theorem State.setFb_reg (fb : Framebuffer) (r : Reg) : (s.setFb fb).reg r = s.reg r := rfl
@[simp] theorem State.setFb_byte (fb : Framebuffer) (a : Nat) : (s.setFb fb).byte a = s.byte a := rfl

/-! ## setKeys -/

@[simp] theorem State.setKeys_v (ks : BitVec 16) : (s.setKeys ks).v = s.v := rfl
@[simp] theorem State.setKeys_pc (ks : BitVec 16) : (s.setKeys ks).pc = s.pc := rfl
@[simp] theorem State.setKeys_i (ks : BitVec 16) : (s.setKeys ks).i = s.i := rfl
@[simp] theorem State.setKeys_stack (ks : BitVec 16) : (s.setKeys ks).stack = s.stack := rfl
@[simp] theorem State.setKeys_dt (ks : BitVec 16) : (s.setKeys ks).dt = s.dt := rfl
@[simp] theorem State.setKeys_st (ks : BitVec 16) : (s.setKeys ks).st = s.st := rfl
@[simp] theorem State.setKeys_mem (ks : BitVec 16) : (s.setKeys ks).mem = s.mem := rfl
@[simp] theorem State.setKeys_fb (ks : BitVec 16) : (s.setKeys ks).fb = s.fb := rfl
@[simp] theorem State.setKeys_keys (ks : BitVec 16) : (s.setKeys ks).keys = ks := rfl
@[simp] theorem State.setKeys_params (ks : BitVec 16) : (s.setKeys ks).params = s.params := rfl
@[simp] theorem State.setKeys_draws (ks : BitVec 16) : (s.setKeys ks).draws = s.draws := rfl
@[simp] theorem State.setKeys_beeps (ks : BitVec 16) : (s.setKeys ks).beeps = s.beeps := rfl
@[simp] theorem State.setKeys_reg (ks : BitVec 16) (r : Reg) : (s.setKeys ks).reg r = s.reg r := rfl
@[simp] theorem State.setKeys_byte (ks : BitVec 16) (a : Nat) : (s.setKeys ks).byte a = s.byte a := rfl
@[simp] theorem State.setKeys_pixel (ks : BitVec 16) (p : Nat) : (s.setKeys ks).pixel p = s.pixel p := rfl

/-! ## emitBeep -/

@[simp] theorem State.emitBeep_v : s.emitBeep.v = s.v := rfl
@[simp] theorem State.emitBeep_pc : s.emitBeep.pc = s.pc := rfl
@[simp] theorem State.emitBeep_i : s.emitBeep.i = s.i := rfl
@[simp] theorem State.emitBeep_stack : s.emitBeep.stack = s.stack := rfl
@[simp] theorem State.emitBeep_dt : s.emitBeep.dt = s.dt := rfl
@[simp] theorem State.emitBeep_st : s.emitBeep.st = s.st := rfl
@[simp] theorem State.emitBeep_mem : s.emitBeep.mem = s.mem := rfl
@[simp] theorem State.emitBeep_fb : s.emitBeep.fb = s.fb := rfl
@[simp] theorem State.emitBeep_keys : s.emitBeep.keys = s.keys := rfl
@[simp] theorem State.emitBeep_params : s.emitBeep.params = s.params := rfl
@[simp] theorem State.emitBeep_draws : s.emitBeep.draws = s.draws := rfl
@[simp] theorem State.emitBeep_beeps : s.emitBeep.beeps = s.beeps + 1 := rfl
@[simp] theorem State.emitBeep_reg (r : Reg) : s.emitBeep.reg r = s.reg r := rfl
@[simp] theorem State.emitBeep_byte (a : Nat) : s.emitBeep.byte a = s.byte a := rfl
@[simp] theorem State.emitBeep_pixel (p : Nat) : s.emitBeep.pixel p = s.pixel p := rfl

/-! ## countDraw -/

@[simp] theorem State.countDraw_v : s.countDraw.v = s.v := rfl
@[simp] theorem State.countDraw_pc : s.countDraw.pc = s.pc := rfl
@[simp] theorem State.countDraw_i : s.countDraw.i = s.i := rfl
@[simp] theorem State.countDraw_stack : s.countDraw.stack = s.stack := rfl
@[simp] theorem State.countDraw_dt : s.countDraw.dt = s.dt := rfl
@[simp] theorem State.countDraw_st : s.countDraw.st = s.st := rfl
@[simp] theorem State.countDraw_mem : s.countDraw.mem = s.mem := rfl
@[simp] theorem State.countDraw_fb : s.countDraw.fb = s.fb := rfl
@[simp] theorem State.countDraw_keys : s.countDraw.keys = s.keys := rfl
@[simp] theorem State.countDraw_params : s.countDraw.params = s.params := rfl
@[simp] theorem State.countDraw_draws : s.countDraw.draws = s.draws + 1 := rfl
@[simp] theorem State.countDraw_beeps : s.countDraw.beeps = s.beeps := rfl
@[simp] theorem State.countDraw_reg (r : Reg) : s.countDraw.reg r = s.reg r := rfl
@[simp] theorem State.countDraw_byte (a : Nat) : s.countDraw.byte a = s.byte a := rfl
@[simp] theorem State.countDraw_pixel (p : Nat) : s.countDraw.pixel p = s.pixel p := rfl

/-! ## setByte -/

@[simp] theorem State.setByte_v (a : Nat) (b : Byte) : (s.setByte a b).v = s.v := rfl
@[simp] theorem State.setByte_pc (a : Nat) (b : Byte) : (s.setByte a b).pc = s.pc := rfl
@[simp] theorem State.setByte_i (a : Nat) (b : Byte) : (s.setByte a b).i = s.i := rfl
@[simp] theorem State.setByte_stack (a : Nat) (b : Byte) : (s.setByte a b).stack = s.stack := rfl
@[simp] theorem State.setByte_dt (a : Nat) (b : Byte) : (s.setByte a b).dt = s.dt := rfl
@[simp] theorem State.setByte_st (a : Nat) (b : Byte) : (s.setByte a b).st = s.st := rfl
@[simp] theorem State.setByte_mem (a : Nat) (b : Byte) : (s.setByte a b).mem = Memory.write s.params.font s.mem a b := rfl
@[simp] theorem State.setByte_fb (a : Nat) (b : Byte) : (s.setByte a b).fb = s.fb := rfl
@[simp] theorem State.setByte_keys (a : Nat) (b : Byte) : (s.setByte a b).keys = s.keys := rfl
@[simp] theorem State.setByte_params (a : Nat) (b : Byte) : (s.setByte a b).params = s.params := rfl
@[simp] theorem State.setByte_draws (a : Nat) (b : Byte) : (s.setByte a b).draws = s.draws := rfl
@[simp] theorem State.setByte_beeps (a : Nat) (b : Byte) : (s.setByte a b).beeps = s.beeps := rfl
@[simp] theorem State.setByte_reg (a : Nat) (b : Byte) (r : Reg) : (s.setByte a b).reg r = s.reg r := rfl
@[simp] theorem State.setByte_pixel (a : Nat) (b : Byte) (p : Nat) : (s.setByte a b).pixel p = s.pixel p := rfl

/-! ## skipIf: only `pc` (40_control_transfer R78) -/

@[simp] theorem State.skipIf_v (c : Bool) : (s.skipIf c).v = s.v := by cases c <;> rfl
@[simp] theorem State.skipIf_pc (c : Bool) : (s.skipIf c).pc = s.pc + (if c then 4#16 else 2#16) := by
  cases c <;> rfl
@[simp] theorem State.skipIf_i (c : Bool) : (s.skipIf c).i = s.i := by cases c <;> rfl
@[simp] theorem State.skipIf_stack (c : Bool) : (s.skipIf c).stack = s.stack := by cases c <;> rfl
@[simp] theorem State.skipIf_dt (c : Bool) : (s.skipIf c).dt = s.dt := by cases c <;> rfl
@[simp] theorem State.skipIf_st (c : Bool) : (s.skipIf c).st = s.st := by cases c <;> rfl
@[simp] theorem State.skipIf_mem (c : Bool) : (s.skipIf c).mem = s.mem := by cases c <;> rfl
@[simp] theorem State.skipIf_fb (c : Bool) : (s.skipIf c).fb = s.fb := by cases c <;> rfl
@[simp] theorem State.skipIf_keys (c : Bool) : (s.skipIf c).keys = s.keys := by cases c <;> rfl
@[simp] theorem State.skipIf_params (c : Bool) : (s.skipIf c).params = s.params := by cases c <;> rfl
@[simp] theorem State.skipIf_draws (c : Bool) : (s.skipIf c).draws = s.draws := by cases c <;> rfl
@[simp] theorem State.skipIf_beeps (c : Bool) : (s.skipIf c).beeps = s.beeps := by cases c <;> rfl
@[simp] theorem State.skipIf_reg (c : Bool) (r : Reg) : (s.skipIf c).reg r = s.reg r := by cases c <;> rfl
@[simp] theorem State.skipIf_byte (c : Bool) (a : Nat) : (s.skipIf c).byte a = s.byte a := by cases c <;> rfl
@[simp] theorem State.skipIf_pixel (c : Bool) (p : Nat) : (s.skipIf c).pixel p = s.pixel p := by cases c <;> rfl

/-! ## Registers read back what was written -/

@[simp] theorem State.setReg_reg (x : Reg) (b : Byte) (r : Reg) :
    (s.setReg x b).reg r = if r = x then b else s.reg r := by
  simp only [State.reg, State.setReg_v, Fin.getElem_fin, Vector.getElem_set]
  simp only [Fin.ext_iff, eq_comm]

theorem State.setReg_reg_self (x : Reg) (b : Byte) : (s.setReg x b).reg x = b := by simp

theorem State.setReg_reg_ne (x : Reg) (b : Byte) {r : Reg} (h : r ≠ x) : (s.setReg x b).reg r = s.reg r := by
  simp [h]

@[simp] theorem State.setRegs_reg (f : Reg → Byte) (r : Reg) : (s.setRegs f).reg r = f r := by
  simp [State.reg]

@[simp] theorem State.loadRegs_reg (bs : List Byte) (r : Reg) :
    (s.loadRegs bs).reg r = bs.getD r.val (s.reg r) := by
  simp [State.loadRegs]

@[simp] theorem State.loadRegs_pc (bs : List Byte) : (s.loadRegs bs).pc = s.pc := rfl
@[simp] theorem State.loadRegs_i (bs : List Byte) : (s.loadRegs bs).i = s.i := rfl
@[simp] theorem State.loadRegs_stack (bs : List Byte) : (s.loadRegs bs).stack = s.stack := rfl
@[simp] theorem State.loadRegs_dt (bs : List Byte) : (s.loadRegs bs).dt = s.dt := rfl
@[simp] theorem State.loadRegs_st (bs : List Byte) : (s.loadRegs bs).st = s.st := rfl
@[simp] theorem State.loadRegs_mem (bs : List Byte) : (s.loadRegs bs).mem = s.mem := rfl
@[simp] theorem State.loadRegs_fb (bs : List Byte) : (s.loadRegs bs).fb = s.fb := rfl
@[simp] theorem State.loadRegs_keys (bs : List Byte) : (s.loadRegs bs).keys = s.keys := rfl
@[simp] theorem State.loadRegs_params (bs : List Byte) : (s.loadRegs bs).params = s.params := rfl
@[simp] theorem State.loadRegs_draws (bs : List Byte) : (s.loadRegs bs).draws = s.draws := rfl
@[simp] theorem State.loadRegs_beeps (bs : List Byte) : (s.loadRegs bs).beeps = s.beeps := rfl
@[simp] theorem State.loadRegs_byte (bs : List Byte) (a : Nat) : (s.loadRegs bs).byte a = s.byte a := rfl
@[simp] theorem State.loadRegs_pixel (bs : List Byte) (p : Nat) : (s.loadRegs bs).pixel p = s.pixel p := rfl

/-- Two states agree on every register exactly when they hold the same register file. -/
theorem State.v_eq_of_reg {s t : State} (h : ∀ r, t.reg r = s.reg r) : t.v = s.v := by
  apply Vector.ext
  intro k hk
  exact h ⟨k, hk⟩

/-- The register list of `LD [I], Vx` holds `V[j]` at place `j` (42_index_memory R115). -/
theorem State.regsUpTo_length (x : Reg) : (s.regsUpTo x).length = x.val + 1 := by
  have := x.isLt
  simp only [State.regsUpTo, List.length_take, Vector.length_toList]
  omega

theorem State.regsUpTo_getElem (x : Reg) (j : Nat) (h : j < (s.regsUpTo x).length) (hj : j < 16) :
    (s.regsUpTo x)[j] = s.reg ⟨j, hj⟩ := by
  simp [State.regsUpTo, State.reg]

end Sys2Proof.Machine
end

