-- ==== Sys2Proof/Laws/Memory.lean ====
section
/-! SUPPORT. Memory: a byte reads back what was written last, a write leaves every other byte alone, and every operation
keeps the canonical form. -/

namespace Sys2Proof.Machine

variable (font : Vector Byte 80) (m : Memory)

theorem Memory.read_erase (a a' : Nat) :
    Memory.read font (m.erase a) a' = if a' = a then unlisted font a else Memory.read font m a' := by
  induction m with
  | nil => simp only [Memory.erase, List.filter_nil, Memory.read]; split <;> simp_all
  | cons c m ih =>
    obtain ⟨k, b⟩ := c
    simp only [Memory.erase, List.filter_cons] at ih ⊢
    by_cases hk : k = a
    · subst hk
      simp only [bne_self_eq_false, Bool.false_eq_true, if_false, ih, Memory.read]
      split <;> simp_all
    · simp only [bne_iff_ne, ne_eq, hk, not_false_eq_true, if_true, Memory.read, ih]
      by_cases h1 : a' = k
      · subst h1; simp [hk]
      · simp [h1]

theorem Memory.read_insert (a : Nat) (b : Byte) (a' : Nat) (h : ∀ c ∈ m, c.1 ≠ a) :
    Memory.read font (m.insert a b) a' = if a' = a then b else Memory.read font m a' := by
  induction m with
  | nil => simp [Memory.insert, Memory.read]
  | cons c m ih =>
    obtain ⟨k, d⟩ := c
    have hk : k ≠ a := h (k, d) (by simp)
    have ih := ih (fun c hc => h c (by simp [hc]))
    simp only [Memory.insert]
    split
    · simp [Memory.read]
    · simp only [Memory.read, ih]
      by_cases h1 : a' = k
      · subst h1; simp [hk]
      · simp [h1]

theorem Memory.mem_erase {a : Nat} {c : Host.Cell} : c ∈ m.erase a ↔ c ∈ m ∧ c.1 ≠ a := by
  simp [Memory.erase]

/-- A read after a write: the written byte at its address, the old byte everywhere else (20_memory R38). -/
theorem Memory.read_write (a : Nat) (b : Byte) (a' : Nat) :
    Memory.read font (Memory.write font m a b) a' = if a' = a then b else Memory.read font m a' := by
  unfold Memory.write
  split
  · rename_i h; rw [Memory.read_erase, h]
  · rw [Memory.read_insert _ _ _ _ _ (fun c hc => ((Memory.mem_erase m).1 hc).2), Memory.read_erase]
    split <;> rfl

theorem Memory.mem_insert {a : Nat} {b : Byte} {c : Host.Cell} : c ∈ m.insert a b ↔ c = (a, b) ∨ c ∈ m := by
  induction m with
  | nil => simp [Memory.insert]
  | cons d m ih =>
    obtain ⟨k, e⟩ := d
    simp only [Memory.insert]
    split
    · simp
    · simp only [List.mem_cons, ih]; tauto

theorem Memory.pairwise_insert {a : Nat} {b : Byte} (hm : m.Pairwise (fun c d => c.1 < d.1))
    (h : ∀ c ∈ m, c.1 ≠ a) : (m.insert a b).Pairwise (fun c d => c.1 < d.1) := by
  induction m with
  | nil => simp [Memory.insert]
  | cons d m ih =>
    obtain ⟨k, e⟩ := d
    have hk : k ≠ a := h (k, e) (by simp)
    simp only [Memory.insert]
    obtain ⟨hd, hm'⟩ := List.pairwise_cons.1 hm
    split
    · rename_i hlt
      refine List.pairwise_cons.2 ⟨?_, hm⟩
      intro c hc
      rcases List.mem_cons.1 hc with rfl | hc
      · exact hlt
      · exact Nat.lt_trans hlt (hd c hc)
    · rename_i hlt
      refine List.pairwise_cons.2 ⟨?_, ih hm' (fun c hc => h c (by simp [hc]))⟩
      intro c hc
      rcases (Memory.mem_insert m).1 hc with rfl | hc
      · show k < a; omega
      · exact hd c hc

/-- A write within memory keeps the canonical form. -/
theorem Memory.wf_write {a : Nat} {b : Byte} (hm : Memory.wf font m) (ha : a ≤ maxAddr) :
    Memory.wf font (Memory.write font m a b) := by
  have he : Memory.wf font (m.erase a) :=
    ⟨hm.1.filter _, fun c hc => hm.2 c ((Memory.mem_erase m).1 hc).1⟩
  unfold Memory.write
  split
  · exact he
  · rename_i hb
    refine ⟨Memory.pairwise_insert _ he.1 (fun c hc => ((Memory.mem_erase m).1 hc).2), ?_⟩
    intro c hc
    rcases (Memory.mem_insert _).1 hc with rfl | hc
    · exact ⟨ha, hb⟩
    · exact he.2 c hc

/-- Two canonical memories that read the same everywhere are the same list: equal memories are equal data. -/
theorem Memory.eq_of_read_eq {m m' : Memory} (hm : Memory.wf font m) (hm' : Memory.wf font m')
    (h : ∀ a, Memory.read font m a = Memory.read font m' a) : m = m' := by
  have absent : ∀ (l : Memory) (a : Nat), (∀ c ∈ l, a < c.1) → Memory.read font l a = unlisted font a := by
    intro l a hl
    induction l with
    | nil => rfl
    | cons c l ih =>
      obtain ⟨k, b⟩ := c
      have hk : a < k := hl (k, b) (by simp)
      have : ¬ a = k := by omega
      simp only [Memory.read, this, if_false]
      exact ih (fun c hc => hl c (by simp [hc]))
  have tail : ∀ {k : Nat} {b : Byte} {l : Memory}, Memory.wf font ((k, b) :: l) →
      Memory.wf font l ∧ (∀ c ∈ l, k < c.1) ∧ b ≠ unlisted font k := fun {k b l} hw =>
    ⟨⟨(List.pairwise_cons.1 hw.1).2, fun c hc => hw.2 c (by simp [hc])⟩,
      (List.pairwise_cons.1 hw.1).1, (hw.2 (k, b) (by simp)).2⟩
  induction m generalizing m' with
  | nil =>
    cases m' with
    | nil => rfl
    | cons c l =>
      obtain ⟨k, b⟩ := c
      exact absurd (by have := h k; simpa [Memory.read] using this.symm) (tail hm').2.2
  | cons c l ih =>
    obtain ⟨k, b⟩ := c
    obtain ⟨hl, hk, hb⟩ := tail hm
    cases m' with
    | nil => exact absurd (by have := h k; simpa [Memory.read] using this) hb
    | cons c' l' =>
      obtain ⟨k', b'⟩ := c'
      obtain ⟨hl', hk', hb'⟩ := tail hm'
      have hkk : k = k' := by
        rcases Nat.lt_trichotomy k k' with hlt | heq | hgt
        · have hr := h k
          have : ¬ k = k' := by omega
          simp only [Memory.read, if_true, this, if_false] at hr
          rw [absent l' k (fun c hc => Nat.lt_trans hlt (hk' c hc))] at hr
          exact absurd hr hb
        · exact heq
        · have hr := h k'
          have : ¬ k' = k := by omega
          simp only [Memory.read, if_true, this, if_false] at hr
          rw [absent l k' (fun c hc => Nat.lt_trans hgt (hk c hc))] at hr
          exact absurd hr.symm hb'
      subst hkk
      have hbb : b = b' := by simpa [Memory.read] using h k
      subst hbb
      congr 1
      refine ih hl hl' (fun a => ?_)
      by_cases ha : a = k
      · subst ha; rw [absent l a hk, absent l' a hk']
      · simpa [Memory.read, ha] using h a

variable (s : State)

@[simp] theorem State.setByte_byte (a : Nat) (b : Byte) (a' : Nat) :
    (s.setByte a b).byte a' = if a' = a then b else s.byte a' :=
  Memory.read_write _ _ _ _ _

theorem State.memOk_setByte {s : State} {a : Nat} {b : Byte} (h : Memory.wf s.params.font s.mem) (ha : a ≤ maxAddr) :
    Memory.wf (s.setByte a b).params.font (s.setByte a b).mem :=
  Memory.wf_write _ _ h ha

/-! ## setBytes: everything but memory is left alone -/

@[simp] theorem State.setBytes_nil (base : Nat) : s.setBytes base [] = s := rfl

theorem State.setBytes_cons (base : Nat) (b : Byte) (bs : List Byte) :
    s.setBytes base (b :: bs) = (s.setByte base b).setBytes (base + 1) bs := rfl

/-- A block write changes `mem` and nothing else. -/
theorem State.setBytes_eq (base : Nat) (bs : List Byte) :
    s.setBytes base bs = { s with mem := (s.setBytes base bs).mem } := by
  induction bs generalizing s base with
  | nil => rfl
  | cons b bs ih => rw [State.setBytes_cons, ih]; rfl

@[simp] theorem State.setBytes_v (base : Nat) (bs : List Byte) : (s.setBytes base bs).v = s.v := by
  rw [State.setBytes_eq]
@[simp] theorem State.setBytes_pc (base : Nat) (bs : List Byte) : (s.setBytes base bs).pc = s.pc := by
  rw [State.setBytes_eq]
@[simp] theorem State.setBytes_i (base : Nat) (bs : List Byte) : (s.setBytes base bs).i = s.i := by
  rw [State.setBytes_eq]
@[simp] theorem State.setBytes_stack (base : Nat) (bs : List Byte) : (s.setBytes base bs).stack = s.stack := by
  rw [State.setBytes_eq]
@[simp] theorem State.setBytes_dt (base : Nat) (bs : List Byte) : (s.setBytes base bs).dt = s.dt := by
  rw [State.setBytes_eq]
@[simp] theorem State.setBytes_st (base : Nat) (bs : List Byte) : (s.setBytes base bs).st = s.st := by
  rw [State.setBytes_eq]
@[simp] theorem State.setBytes_fb (base : Nat) (bs : List Byte) : (s.setBytes base bs).fb = s.fb := by
  rw [State.setBytes_eq]
@[simp] theorem State.setBytes_keys (base : Nat) (bs : List Byte) : (s.setBytes base bs).keys = s.keys := by
  rw [State.setBytes_eq]
@[simp] theorem State.setBytes_params (base : Nat) (bs : List Byte) : (s.setBytes base bs).params = s.params := by
  rw [State.setBytes_eq]
@[simp] theorem State.setBytes_draws (base : Nat) (bs : List Byte) : (s.setBytes base bs).draws = s.draws := by
  rw [State.setBytes_eq]
@[simp] theorem State.setBytes_beeps (base : Nat) (bs : List Byte) : (s.setBytes base bs).beeps = s.beeps := by
  rw [State.setBytes_eq]
@[simp] theorem State.setBytes_reg (base : Nat) (bs : List Byte) (r : Reg) : (s.setBytes base bs).reg r = s.reg r := by
  simp [State.reg]
@[simp] theorem State.setBytes_pixel (base : Nat) (bs : List Byte) (p : Nat) :
    (s.setBytes base bs).pixel p = s.pixel p := by
  simp [State.pixel]

/-- A block write puts byte `j` at `base + j` and leaves every other byte alone (20_memory R34). -/
theorem State.setBytes_byte (base : Nat) (bs : List Byte) (a : Nat) :
    (s.setBytes base bs).byte a = if base ≤ a then bs.getD (a - base) (s.byte a) else s.byte a := by
  induction bs generalizing s base with
  | nil => simp
  | cons b bs ih =>
    rw [State.setBytes_cons, ih, State.setByte_byte]
    by_cases h0 : a = base
    · subst h0
      have h1 : ¬ a + 1 ≤ a := by omega
      simp [h1]
    · by_cases h1 : base ≤ a
      · have h2 : base + 1 ≤ a := by omega
        have h3 : a - base = a - (base + 1) + 1 := by omega
        simp [h0, h1, h2, h3]
      · have h2 : ¬ base + 1 ≤ a := by omega
        simp [h0, h1, h2]

/-- A block write within memory keeps the canonical form. -/
theorem State.memOk_setBytes {s : State} {base : Nat} {bs : List Byte} (h : Memory.wf s.params.font s.mem)
    (hr : base + bs.length ≤ maxAddr + 1) :
    Memory.wf (s.setBytes base bs).params.font (s.setBytes base bs).mem := by
  induction bs generalizing s base with
  | nil => exact h
  | cons b bs ih =>
    rw [State.setBytes_cons]
    simp only [List.length_cons] at hr
    exact ih (State.memOk_setByte h (by omega)) (by omega)

/-! ## The range check and the two block operations (20_memory R31) -/

/-- The range check passes exactly when the range is empty or lies in memory. -/
theorem rangeFault_eq_none {base n : Nat} : rangeFault base n = none ↔ n = 0 ∨ base + n ≤ maxAddr + 1 := by
  unfold rangeFault
  split <;> simp only [reduceCtorEq, false_iff, true_iff] <;> omega

/-- The range check fails with the lowest offending address. -/
theorem rangeFault_eq_some {base n : Nat} {f : Fault} :
    rangeFault base n = some f ↔
      0 < n ∧ maxAddr + 1 < base + n ∧ f = .addressOutOfRange (max base (maxAddr + 1)) := by
  unfold rangeFault
  split
  · simp only [Option.some.injEq]
    constructor
    · rintro rfl; exact ⟨by omega, by omega, rfl⟩
    · rintro ⟨_, _, rfl⟩; rfl
  · simp only [reduceCtorEq, false_iff]; omega

@[simp] theorem State.bytes_length (base n : Nat) : (s.bytes base n).length = n := by simp [State.bytes]

theorem State.bytes_getD (base n j : Nat) (d : Byte) (h : j < n) : (s.bytes base n).getD j d = s.byte (base + j) := by
  simp [State.bytes, List.getD, h]

/-- Everything a block read can do. -/
theorem loadBlock_cases (base n : Nat) :
    (loadBlock s base n = .ok (s.bytes base n) ∧ (n = 0 ∨ base + n ≤ maxAddr + 1)) ∨
    (loadBlock s base n = .error (.addressOutOfRange (max base (maxAddr + 1))) ∧ 0 < n ∧ maxAddr + 1 < base + n) := by
  unfold loadBlock
  cases h : rangeFault base n with
  | none => exact .inl ⟨rfl, rangeFault_eq_none.1 h⟩
  | some f =>
    obtain ⟨h1, h2, rfl⟩ := rangeFault_eq_some.1 h
    exact .inr ⟨rfl, h1, h2⟩

/-- Everything a block write can do. -/
theorem storeBlock_cases (base : Nat) (bs : List Byte) :
    (storeBlock s base bs = .ok (s.setBytes base bs) ∧ (bs.length = 0 ∨ base + bs.length ≤ maxAddr + 1)) ∨
    (storeBlock s base bs = .error (.addressOutOfRange (max base (maxAddr + 1))) ∧
      0 < bs.length ∧ maxAddr + 1 < base + bs.length) := by
  unfold storeBlock
  cases h : rangeFault base bs.length with
  | none => exact .inl ⟨rfl, rangeFault_eq_none.1 h⟩
  | some f =>
    obtain ⟨h1, h2, rfl⟩ := rangeFault_eq_some.1 h
    exact .inr ⟨rfl, h1, h2⟩

theorem loadBlock_ok {s : State} {base n : Nat} (h : base + n ≤ maxAddr + 1) :
    loadBlock s base n = .ok (s.bytes base n) := by
  rw [loadBlock, rangeFault_eq_none.2 (.inr h)]

theorem storeBlock_ok {s : State} {base : Nat} {bs : List Byte} (h : base + bs.length ≤ maxAddr + 1) :
    storeBlock s base bs = .ok (s.setBytes base bs) := by
  rw [storeBlock, rangeFault_eq_none.2 (.inr h)]

/-- A block write that succeeds keeps the canonical form. -/
theorem storeBlock_memOk {s t : State} {base : Nat} {bs : List Byte} (hm : Memory.wf s.params.font s.mem)
    (h : storeBlock s base bs = .ok t) : Memory.wf t.params.font t.mem := by
  rcases storeBlock_cases s base bs with ⟨h', hr⟩ | ⟨h', _⟩
  · rw [h'] at h
    obtain rfl := Except.ok.inj h
    rcases hr with h0 | hr
    · rw [List.length_eq_zero_iff.1 h0]; exact hm
    · exact State.memOk_setBytes hm hr
  · rw [h'] at h; cases h

/-- Reset's memory, with nothing listed, is in canonical form. -/
theorem reset_memOk : Memory.wf State.reset.params.font State.reset.mem :=
  ⟨List.Pairwise.nil, fun _ h => absurd h List.not_mem_nil⟩

end Sys2Proof.Machine
end

