-- ==== Sys2Proof/Laws/Display.lean ====
section
/-! SUPPORT. What drawing does to the framebuffer and to the collision: a draw is a list of plots at pairwise different
pixels, so each pixel is inverted at most once and the collision looks at the framebuffer before the draw (43_display R122
(d)). -/

namespace Sys2Proof.Machine

/-- Two coordinate pairs name the same pixel after wrapping (43_display R120). -/
abbrev SamePixel (px py qx qy : Nat) : Prop := px % 64 = qx % 64 ∧ py % 32 = qy % 32

theorem Framebuffer.pixel_congr (fb : Framebuffer) {px py qx qy : Nat} (h : SamePixel px py qx qy) :
    Framebuffer.pixel fb px py = Framebuffer.pixel fb qx qy := by
  have hy : Fin.ofNat 32 py = Fin.ofNat 32 qy := Fin.ext h.2
  simp only [Framebuffer.pixel, hy, h.1]

/-- Flipping a pixel inverts it and no other. -/
theorem Framebuffer.pixel_flip (fb : Framebuffer) (px py qx qy : Nat) :
    Framebuffer.pixel (Framebuffer.flip fb px py) qx qy =
      (Framebuffer.pixel fb qx qy ^^ decide (SamePixel px py qx qy)) := by
  simp only [Framebuffer.pixel, Framebuffer.flip, Fin.getElem_fin, Vector.getElem_set, Fin.val_ofNat]
  by_cases hy : py % 32 = qy % 32
  · simp only [hy, if_true, BitVec.getLsbD_xor, BitVec.getLsbD_twoPow, SamePixel, and_true]
    congr 1
    simp only [Nat.mod_lt px (show 64 > 0 by omega), decide_true, Bool.true_and]
  · simp [hy, SamePixel]

theorem Framebuffer.pixel_blank (px py : Nat) : Framebuffer.pixel (Vector.replicate 32 0#64) px py = false := by
  simp [Framebuffer.pixel]

/-- A framebuffer is its pixels. -/
theorem Framebuffer.ext_pixel {fb fb' : Framebuffer}
    (h : ∀ px py, px < 64 → py < 32 → Framebuffer.pixel fb px py = Framebuffer.pixel fb' px py) : fb = fb' := by
  apply Vector.ext
  intro py hy
  apply BitVec.eq_of_getLsbD_eq
  intro px hx
  simpa [Framebuffer.pixel, Nat.mod_eq_of_lt hx, Nat.mod_eq_of_lt hy] using h px py hx hy

/-- One plot: the target pixel is inverted by a 1 bit (43_display R122). -/
theorem plot_pixel (c : Canvas) (px py : Nat) (bit : Bool) (qx qy : Nat) :
    Framebuffer.pixel (plot c px py bit).fb qx qy =
      (Framebuffer.pixel c.fb qx qy ^^ (bit && decide (SamePixel px py qx qy))) := by
  cases bit
  · simp [plot]
  · simp only [plot, if_true, Framebuffer.pixel_flip, Bool.true_and]

@[simp] theorem plot_hit (c : Canvas) (px py : Nat) (bit : Bool) :
    (plot c px py bit).hit = (c.hit || (bit && Framebuffer.pixel c.fb px py)) := rfl

/-- A list of plots, each a column, a row and a sprite bit. -/
def plotAll (c : Canvas) (ts : List (Nat × Nat × Bool)) : Canvas := ts.foldl (fun c t => plot c t.1 t.2.1 t.2.2) c

/-- The plots of a list are at pairwise different pixels. -/
abbrev Apart (ts : List (Nat × Nat × Bool)) : Prop := ts.Pairwise (fun t u => ¬ SamePixel t.1 t.2.1 u.1 u.2.1)

theorem plotAll_cons (c : Canvas) (t : Nat × Nat × Bool) (ts : List (Nat × Nat × Bool)) :
    plotAll c (t :: ts) = plotAll (plot c t.1 t.2.1 t.2.2) ts := rfl

theorem plotAll_append (c : Canvas) (ts us : List (Nat × Nat × Bool)) :
    plotAll c (ts ++ us) = plotAll (plotAll c ts) us := List.foldl_append

/-- Plots at different pixels: a pixel is inverted exactly when some plot sets it. -/
theorem plotAll_pixel (c : Canvas) {ts : List (Nat × Nat × Bool)} (h : Apart ts) (qx qy : Nat) :
    Framebuffer.pixel (plotAll c ts).fb qx qy =
      (Framebuffer.pixel c.fb qx qy ^^ ts.any (fun t => t.2.2 && decide (SamePixel t.1 t.2.1 qx qy))) := by
  induction ts generalizing c with
  | nil => simp [plotAll]
  | cons t ts ih =>
    obtain ⟨ht, hts⟩ := List.pairwise_cons.1 h
    rw [plotAll_cons, ih _ hts, plot_pixel, List.any_cons, Bool.xor_assoc]
    congr 1
    by_cases hs : SamePixel t.1 t.2.1 qx qy
    · have : ts.any (fun t => t.2.2 && decide (SamePixel t.1 t.2.1 qx qy)) = false := by
        rw [List.any_eq_false]
        intro u hu
        have := ht u hu
        simp only [SamePixel] at hs this ⊢
        simp only [Bool.and_eq_true, decide_eq_true_eq, not_and]
        intro _ h1 h2
        omega
      rw [this, Bool.or_false, Bool.xor_false]
    · simp only [hs, decide_false, Bool.and_false, Bool.false_xor, Bool.false_or]

/-- Plots at different pixels: the collision looks at the framebuffer before the first of them. -/
theorem plotAll_hit (c : Canvas) {ts : List (Nat × Nat × Bool)} (h : Apart ts) :
    (plotAll c ts).hit = (c.hit || ts.any (fun t => t.2.2 && Framebuffer.pixel c.fb t.1 t.2.1)) := by
  induction ts generalizing c with
  | nil => simp [plotAll]
  | cons t ts ih =>
    obtain ⟨ht, hts⟩ := List.pairwise_cons.1 h
    rw [plotAll_cons, ih _ hts, plot_hit, List.any_cons, Bool.or_assoc]
    congr 2
    rw [Bool.eq_iff_iff, List.any_eq_true, List.any_eq_true]
    constructor <;> rintro ⟨u, hu, hb⟩ <;> refine ⟨u, hu, ?_⟩ <;>
      · rw [plot_pixel] at *
        simpa [ht u hu] using hb

/-- The plots of one sprite row (43_display R120). -/
def rowTargets (xs py : Nat) (b : Byte) : List (Nat × Nat × Bool) :=
  (List.range 8).map (fun col => (xs + col, py, b.getLsbD (7 - col)))

/-- The plots of a sprite, row by row (43_display R122). -/
def spriteTargets (xs py : Nat) : List Byte → List (Nat × Nat × Bool)
  | [] => []
  | b :: bs => rowTargets xs py b ++ spriteTargets xs (py + 1) bs

theorem drawRow_eq (c : Canvas) (xs py : Nat) (b : Byte) : drawRow c xs py b = plotAll c (rowTargets xs py b) := by
  simp only [drawRow, plotAll, rowTargets, List.foldl_map]

theorem drawRows_eq (c : Canvas) (xs py : Nat) (bs : List Byte) :
    drawRows c xs py bs = plotAll c (spriteTargets xs py bs) := by
  induction bs generalizing c py with
  | nil => rfl
  | cons b bs ih => rw [drawRows, ih, drawRow_eq, spriteTargets, plotAll_append]

theorem mem_spriteTargets {xs py : Nat} {bs : List Byte} {t : Nat × Nat × Bool} :
    t ∈ spriteTargets xs py bs ↔
      ∃ row col, row < bs.length ∧ col < 8 ∧ t = (xs + col, py + row, (bs.getD row 0#8).getLsbD (7 - col)) := by
  induction bs generalizing py with
  | nil => simp [spriteTargets]
  | cons b bs ih =>
    simp only [spriteTargets, rowTargets, List.mem_append, List.mem_map, List.mem_range, ih, List.length_cons]
    constructor
    · rintro (⟨col, hc, rfl⟩ | ⟨row, col, hr, hc, rfl⟩)
      · exact ⟨0, col, by omega, hc, by simp⟩
      · exact ⟨row + 1, col, by omega, hc, by simp only [List.getD_cons_succ, Prod.mk.injEq, true_and, and_true]; omega⟩
    · rintro ⟨row, col, hr, hc, rfl⟩
      cases row with
      | zero => exact .inl ⟨col, hc, by simp⟩
      | succ row =>
        exact .inr ⟨row, col, by omega, hc,
          by simp only [List.getD_cons_succ, Prod.mk.injEq, true_and, and_true]; omega⟩

/-- The plots of a sprite of at most 32 rows are at different pixels (43_display R122 (d)). -/
theorem apart_spriteTargets {xs py : Nat} {bs : List Byte} (h : bs.length ≤ 32) : Apart (spriteTargets xs py bs) := by
  induction bs generalizing py with
  | nil => exact List.Pairwise.nil
  | cons b bs ih =>
    simp only [List.length_cons] at h
    refine List.pairwise_append.2 ⟨?_, ih (by omega), ?_⟩
    · refine List.pairwise_map.2 (List.Pairwise.imp_of_mem ?_ (List.pairwise_lt_range (n := 8)))
      intro a a' ha ha' hlt
      simp only [List.mem_range] at ha ha'
      simp only [SamePixel]
      omega
    · intro t ht u hu
      obtain ⟨col, hc, rfl⟩ := List.mem_map.1 ht
      obtain ⟨row, col', hr, hc', rfl⟩ := mem_spriteTargets.1 hu
      simp only [SamePixel]
      omega

/-- Everything a sprite does to the pixels: a pixel is inverted exactly when a 1 bit of the sprite lands on it. -/
theorem drawRows_pixel (c : Canvas) (xs py : Nat) {bs : List Byte} (h : bs.length ≤ 32) (qx qy : Nat) :
    Framebuffer.pixel (drawRows c xs py bs).fb qx qy =
      (Framebuffer.pixel c.fb qx qy ^^
        (spriteTargets xs py bs).any (fun t => t.2.2 && decide (SamePixel t.1 t.2.1 qx qy))) := by
  rw [drawRows_eq, plotAll_pixel c (apart_spriteTargets h)]

/-- Everything a sprite does to the collision: it is set when a 1 bit lands on a pixel that was on before the draw. -/
theorem drawRows_hit (c : Canvas) (xs py : Nat) {bs : List Byte} (h : bs.length ≤ 32) :
    (drawRows c xs py bs).hit =
      (c.hit || (spriteTargets xs py bs).any (fun t => t.2.2 && Framebuffer.pixel c.fb t.1 t.2.1)) := by
  rw [drawRows_eq, plotAll_hit c (apart_spriteTargets h)]

variable (s : State) (x y : Reg) (rows : List Byte)

@[simp] theorem drawSprite_pc : (drawSprite x y rows s).pc = s.pc := rfl
@[simp] theorem drawSprite_i : (drawSprite x y rows s).i = s.i := rfl
@[simp] theorem drawSprite_stack : (drawSprite x y rows s).stack = s.stack := rfl
@[simp] theorem drawSprite_dt : (drawSprite x y rows s).dt = s.dt := rfl
@[simp] theorem drawSprite_st : (drawSprite x y rows s).st = s.st := rfl
@[simp] theorem drawSprite_mem : (drawSprite x y rows s).mem = s.mem := rfl
@[simp] theorem drawSprite_keys : (drawSprite x y rows s).keys = s.keys := rfl
@[simp] theorem drawSprite_params : (drawSprite x y rows s).params = s.params := rfl
@[simp] theorem drawSprite_draws : (drawSprite x y rows s).draws = s.draws := rfl
@[simp] theorem drawSprite_beeps : (drawSprite x y rows s).beeps = s.beeps := rfl
@[simp] theorem drawSprite_byte (a : Nat) : (drawSprite x y rows s).byte a = s.byte a := rfl

/-- A draw changes no register but `VF`. -/
theorem drawSprite_reg {r : Reg} (h : r ≠ vf) : (drawSprite x y rows s).reg r = s.reg r := by
  unfold drawSprite
  simp [h]

end Sys2Proof.Machine
end

