-- ==== Sys2Proof/Laws/Exec.lean ====
section
/-! SUPPORT. What a step and each branching meaning can do, said once: callers cite these and never unfold the meaning. -/

namespace Sys2Proof.Machine

variable {s t : State}

/-! ## Fetch and step (30_encoding R50) -/

/-- Everything fetch can do (20_memory R31, R32). -/
theorem fetch_cases (s : State) :
    (s.pc.toNat ≤ 0xFFE ∧ fetch s = .ok (wordOfBytes (s.byte s.pc.toNat) (s.byte (s.pc.toNat + 1)))) ∨
    (0xFFE < s.pc.toNat ∧ fetch s = .error (.addressOutOfRange (max s.pc.toNat 0x1000))) := by
  unfold fetch
  cases h : rangeFault s.pc.toNat 2 with
  | none =>
    have := rangeFault_eq_none.1 h
    simp only [maxAddr] at this
    exact .inl ⟨by omega, rfl⟩
  | some f =>
    obtain ⟨_, h2, rfl⟩ := rangeFault_eq_some.1 h
    simp only [maxAddr] at h2
    exact .inr ⟨by omega, rfl⟩

/-- Fetch and decode succeed exactly when the fetched word decodes. -/
theorem fetchDecode_eq_ok {i : Instr} : fetchDecode s = .ok i ↔ ∃ op, fetch s = .ok op ∧ decode op = .ok i := by
  unfold fetchDecode
  cases fetch s with
  | error f => simp
  | ok op => cases hd : decode op <;> simp [hd]

/-- Everything a step can do: run the fetched instruction, or fault before it. -/
theorem step_cases (s : State) :
    (∃ i, fetchDecode s = .ok i ∧ step s = exec i s) ∨ (∃ f, fetchDecode s = .error f ∧ step s = .fault f) := by
  unfold step
  cases h : fetchDecode s with
  | ok i => exact .inl ⟨i, rfl, rfl⟩
  | error f => exact .inr ⟨f, rfl, rfl⟩

/-- A step with a next state ran the fetched instruction. -/
theorem step_next (h : step s = .next t) : ∃ i, fetchDecode s = .ok i ∧ exec i s = .next t := by
  rcases step_cases s with ⟨i, hi, he⟩ | ⟨f, _, he⟩
  · exact ⟨i, hi, he ▸ h⟩
  · rw [he] at h; cases h

/-- A fetch reads two bytes within memory, so `pc` was at most 0xFFE. -/
theorem fetchDecode_pc {i : Instr} (h : fetchDecode s = .ok i) : s.pc.toNat ≤ 0xFFE := by
  obtain ⟨op, hf, _⟩ := fetchDecode_eq_ok.1 h
  rcases fetch_cases s with ⟨hp, _⟩ | ⟨_, he⟩
  · exact hp
  · rw [he] at hf; cases hf

/-! ## The meanings that branch -/

/-- Everything `RET` can do (40_control_transfer R71). -/
theorem execRet_cases (s : State) :
    (∃ a, s.stack.getLast? = some a ∧ execRet s = .next ((s.setPc a).setStack s.stack.dropLast)) ∨
    (s.stack = [] ∧ execRet s = .fault .stackUnderflow) := by
  unfold execRet
  cases h : s.stack.getLast? with
  | none => exact .inr ⟨List.getLast?_eq_none_iff.1 h, rfl⟩
  | some a => exact .inl ⟨a, rfl, rfl⟩

theorem State.stackFull_iff : s.stackFull = true ↔ s.params.stackDepth = some s.stack.length := by
  simp [State.stackFull]

/-- Everything `CALL` can do (40_control_transfer R73). -/
theorem execCall_cases (nnn : BitVec 12) (s : State) :
    (s.params.stackDepth ≠ some s.stack.length ∧
      execCall nnn s = .next ((s.setStack (s.stack ++ [s.pc + 2#16])).setPc (zext16 nnn))) ∨
    (s.params.stackDepth = some s.stack.length ∧ execCall nnn s = .fault .stackOverflow) := by
  unfold execCall
  by_cases h : s.stackFull = true
  · exact .inr ⟨State.stackFull_iff.1 h, by rw [if_pos h]; rfl⟩
  · exact .inl ⟨fun hd => h (State.stackFull_iff.2 hd), by rw [if_neg h]⟩

/-- Everything a store from `I` can do (42_index_memory R110, R114, R115). -/
theorem storeNext_cases (bs : List Byte) (s : State) :
    ((bs.length = 0 ∨ s.i.toNat + bs.length ≤ 0x1000) ∧
      storeNext bs s = .next (s.setBytes s.i.toNat bs).advance) ∨
    (0 < bs.length ∧ 0x1000 < s.i.toNat + bs.length ∧
      storeNext bs s = .fault (.addressOutOfRange (max s.i.toNat 0x1000))) := by
  unfold storeNext State.base
  rcases storeBlock_cases s s.i.toNat bs with ⟨h, hr⟩ | ⟨h, h0, hr⟩
  · exact .inl ⟨hr, by rw [h]; rfl⟩
  · exact .inr ⟨h0, hr, by rw [h]; rfl⟩

/-- Everything `LD Vx, [I]` can do (42_index_memory R116). -/
theorem execLdVxMem_cases (x : Reg) (s : State) :
    (s.i.toNat + x.val ≤ 0xFFF ∧
      execLdVxMem x s = .next (s.loadRegs (s.bytes s.i.toNat (x.val + 1))).advance) ∨
    (0xFFF < s.i.toNat + x.val ∧ execLdVxMem x s = .fault (.addressOutOfRange (max s.i.toNat 0x1000))) := by
  unfold execLdVxMem State.base
  rcases loadBlock_cases s s.i.toNat (x.val + 1) with ⟨h, hr⟩ | ⟨h, h0, hr⟩ <;> simp only [maxAddr] at hr
  · exact .inl ⟨by omega, by rw [h]; rfl⟩
  · exact .inr ⟨by omega, by rw [h]; rfl⟩

/-- Everything `DRW` can do (43_display R122). -/
theorem execDrw_cases (x y : Reg) (n : BitVec 4) (s : State) :
    ((n.toNat = 0 ∨ s.i.toNat + n.toNat ≤ 0x1000) ∧
      execDrw x y n s = .next (drawSprite x y (s.bytes s.i.toNat n.toNat) s).advance) ∨
    (0 < n.toNat ∧ 0x1000 < s.i.toNat + n.toNat ∧
      execDrw x y n s = .fault (.addressOutOfRange (max s.i.toNat 0x1000))) := by
  unfold execDrw State.base
  rcases loadBlock_cases s s.i.toNat n.toNat with ⟨h, hr⟩ | ⟨h, h0, hr⟩
  · exact .inl ⟨hr, by rw [h]; rfl⟩
  · exact .inr ⟨h0, hr, by rw [h]; rfl⟩

theorem State.mem_heldKeys {k : Key} : k ∈ s.heldKeys ↔ s.keys.getLsbD k.val = true := by
  simp [State.heldKeys]

theorem State.heldKeys_eq_nil : s.heldKeys = [] ↔ ∀ k : Key, s.keys.getLsbD k.val = false := by
  simp [State.heldKeys]

/-- The first held key is the lowest one (44_keypad_timers R134). -/
theorem State.heldKeys_head_min {k : Key} {ks : List Key} (h : s.heldKeys = k :: ks) {j : Key} (hj : j < k) :
    s.keys.getLsbD j.val = false := by
  have hs : s.heldKeys.Pairwise (· < ·) := (List.pairwise_lt_finRange 16).filter _
  rw [h] at hs
  by_contra hne
  have hm : j ∈ s.heldKeys := State.mem_heldKeys.2 (by simpa using hne)
  rw [h] at hm
  rcases List.mem_cons.1 hm with rfl | hm
  · exact absurd hj (lt_irrefl _)
  · exact absurd ((List.pairwise_cons.1 hs).1 j hm) (not_lt.2 hj.le)

/-- Everything `LD Vx, K` can do (44_keypad_timers R134). -/
theorem execLdVxK_cases (x : Reg) (s : State) :
    ((∀ k : Key, s.keys.getLsbD k.val = false) ∧ execLdVxK x s = .next s) ∨
    (∃ k : Key, s.keys.getLsbD k.val = true ∧ (∀ j : Key, j < k → s.keys.getLsbD j.val = false) ∧
      s.params.keySelect = .lowest ∧ execLdVxK x s = .next (s.setReg x (keyByte k)).advance) ∨
    (∃ k : Key, s.keys.getLsbD k.val = true ∧ s.params.keySelect = .any ∧
      execLdVxK x s = .next (s.countDraw.setReg x (keyByte k)).advance) := by
  unfold execLdVxK
  cases h : s.heldKeys with
  | nil => exact .inl ⟨State.heldKeys_eq_nil.1 h, rfl⟩
  | cons k ks =>
    right
    cases hk : s.params.keySelect with
    | lowest =>
      exact .inl ⟨k, State.mem_heldKeys.1 (by rw [h]; simp), fun j hj => State.heldKeys_head_min h hj, rfl, rfl⟩
    | any =>
      refine .inr ⟨_, State.mem_heldKeys.1 ?_, rfl, rfl⟩
      have hlt : Config.keyPick s.draws % (ks.length + 1) < (k :: ks).length := Nat.mod_lt _ (Nat.succ_pos _)
      rw [h, List.getD_eq_getElem _ _ hlt]
      exact List.getElem_mem hlt

/-- A key's number fits a byte (44_keypad_timers R134 "a number 0 to 15"). -/
theorem keyByte_toNat (k : Key) : (keyByte k).toNat = k.val := by
  have := k.isLt
  simp only [keyByte, BitVec.toNat_ofNat]
  omega

theorem zext16_toNat {w : Nat} (v : BitVec w) (h : w ≤ 16) : (zext16 v).toNat = v.toNat := by
  have := v.isLt
  have : 2 ^ w ≤ 2 ^ 16 := Nat.pow_le_pow_right (by omega) h
  simp only [zext16, BitVec.toNat_setWidth]
  omega

end Sys2Proof.Machine
end

