-- ==== Sys2Proof/Laws/Events.lean ====
section
/-! SUPPORT. What the host events do. -/

namespace Sys2Proof.Machine

variable (s : State)

/-- A timer's decrement stops at 0 (60_exceptions R148). -/
theorem countDown_toNat (b : Byte) : (countDown b).toNat = b.toNat - 1 := by
  unfold countDown
  split
  · rename_i h; subst h; rfl
  · rename_i h
    have hb := b.isLt
    have : b.toNat ≠ 0 := fun h0 => h (BitVec.eq_of_toNat_eq (by simpa using h0))
    rw [BitVec.toNat_sub]
    simp only [BitVec.toNat_ofNat]
    omega

/-- `KeyDown(k)` sets `K[k]` and no other key (60_exceptions R150). -/
theorem keyDown_keys (k j : Key) : (keyDown k s).keys.getLsbD j.val = (decide (j = k) || s.keys.getLsbD j.val) := by
  have := j.isLt
  have hk : (k.val = j.val) ↔ j = k := by rw [Fin.ext_iff]; exact eq_comm
  simp only [keyDown, State.setKeys_keys, BitVec.getLsbD_or, BitVec.getLsbD_twoPow, hk, Bool.or_comm]
  simp

/-- `KeyUp(k)` clears `K[k]` and no other key (60_exceptions R150). -/
theorem keyUp_keys (k j : Key) : (keyUp k s).keys.getLsbD j.val = (!decide (j = k) && s.keys.getLsbD j.val) := by
  have hj := j.isLt
  have hk : (k.val = j.val) ↔ j = k := by rw [Fin.ext_iff]; exact eq_comm
  simp only [keyUp, State.setKeys_keys, BitVec.getLsbD_and, BitVec.getLsbD_not, BitVec.getLsbD_twoPow, hk, hj,
    decide_true, Bool.true_and, Bool.and_comm]
  simp

/-- Everything `Load` can do: copy the bytes, or have no move past the end of memory (20_memory R42, R43). -/
theorem load_cases (bytes : List Byte) (start : Nat) :
    (start + bytes.length ≤ 0x1000 ∧ load bytes s start = .next (s.setBytes start bytes)) ∨
    (0x1000 < start + bytes.length ∧ load bytes s start = .refused .loadBeyondMemory) := by
  unfold load
  split
  · rename_i h; exact .inl ⟨h, rfl⟩
  · rename_i h; exact .inr ⟨Nat.lt_of_not_le h, rfl⟩

/-- `Load` with no start address copies from 0x200 up (20_memory R42). -/
theorem load_default (bytes : List Byte) : load bytes s = load bytes s 0x200 := rfl

/-- Memory overrides change `mem` and nothing else. -/
theorem setCells_eq (cs : List Host.Cell) : setCells s cs = { s with mem := (setCells s cs).mem } := by
  induction cs generalizing s with
  | nil => rfl
  | cons c cs ih => obtain ⟨a, b⟩ := c; rw [setCells, ih]; rfl

@[simp] theorem setCells_v (cs : List Host.Cell) : (setCells s cs).v = s.v := by rw [setCells_eq]
@[simp] theorem setCells_pc (cs : List Host.Cell) : (setCells s cs).pc = s.pc := by rw [setCells_eq]
@[simp] theorem setCells_i (cs : List Host.Cell) : (setCells s cs).i = s.i := by rw [setCells_eq]
@[simp] theorem setCells_stack (cs : List Host.Cell) : (setCells s cs).stack = s.stack := by rw [setCells_eq]
@[simp] theorem setCells_dt (cs : List Host.Cell) : (setCells s cs).dt = s.dt := by rw [setCells_eq]
@[simp] theorem setCells_st (cs : List Host.Cell) : (setCells s cs).st = s.st := by rw [setCells_eq]
@[simp] theorem setCells_fb (cs : List Host.Cell) : (setCells s cs).fb = s.fb := by rw [setCells_eq]
@[simp] theorem setCells_keys (cs : List Host.Cell) : (setCells s cs).keys = s.keys := by rw [setCells_eq]
@[simp] theorem setCells_params (cs : List Host.Cell) : (setCells s cs).params = s.params := by rw [setCells_eq]
@[simp] theorem setCells_draws (cs : List Host.Cell) : (setCells s cs).draws = s.draws := by rw [setCells_eq]
@[simp] theorem setCells_beeps (cs : List Host.Cell) : (setCells s cs).beeps = s.beeps := by rw [setCells_eq]

/-- After memory overrides an address holds the last byte listed for it, or what it held (70_reset R160). -/
theorem setCells_byte (cs : List Host.Cell) (a : Nat) :
    (setCells s cs).byte a = ((cs.reverse.find? (fun c => c.1 == a)).map Prod.snd).getD (s.byte a) := by
  induction cs generalizing s with
  | nil => rfl
  | cons c cs ih =>
    obtain ⟨k, b⟩ := c
    rw [setCells, ih, List.reverse_cons, List.find?_append]
    cases h : cs.reverse.find? (fun c => c.1 == a) with
    | some d => simp
    | none =>
      by_cases hk : a = k
      · subst hk; simp
      · have : ¬ k = a := fun h => hk h.symm
        simp [hk, this]

/-- Memory overrides within memory keep the canonical form. -/
theorem memOk_setCells {s : State} {cs : List Host.Cell} (h : s.memOk) (hc : ∀ c ∈ cs, c.1 ≤ maxAddr) :
    (setCells s cs).memOk := by
  induction cs generalizing s with
  | nil => exact h
  | cons c cs ih =>
    obtain ⟨a, b⟩ := c
    exact ih (State.memOk_setByte h (hc (a, b) (by simp))) (fun d hd => hc d (by simp [hd]))

@[simp] theorem writeFont_v : (writeFont s).v = s.v := State.setBytes_v _ _ _
@[simp] theorem writeFont_pc : (writeFont s).pc = s.pc := State.setBytes_pc _ _ _
@[simp] theorem writeFont_i : (writeFont s).i = s.i := State.setBytes_i _ _ _
@[simp] theorem writeFont_stack : (writeFont s).stack = s.stack := State.setBytes_stack _ _ _
@[simp] theorem writeFont_dt : (writeFont s).dt = s.dt := State.setBytes_dt _ _ _
@[simp] theorem writeFont_st : (writeFont s).st = s.st := State.setBytes_st _ _ _
@[simp] theorem writeFont_fb : (writeFont s).fb = s.fb := State.setBytes_fb _ _ _
@[simp] theorem writeFont_keys : (writeFont s).keys = s.keys := State.setBytes_keys _ _ _
@[simp] theorem writeFont_params : (writeFont s).params = s.params := State.setBytes_params _ _ _
@[simp] theorem writeFont_draws : (writeFont s).draws = s.draws := State.setBytes_draws _ _ _
@[simp] theorem writeFont_beeps : (writeFont s).beeps = s.beeps := State.setBytes_beeps _ _ _

/-- The font write puts the font at 0x000 to 0x04F and leaves the rest (70_reset R162). -/
theorem writeFont_byte (a : Nat) : (writeFont s).byte a = if h : a < 80 then s.params.font[a] else s.byte a := by
  rw [writeFont, State.setBytes_byte]
  simp only [Nat.zero_le, if_true, Nat.sub_zero]
  split
  · rename_i h; simp [List.getD, h]
  · rename_i h; simp [List.getD, h]

/-- The overrides leave the parameters alone. -/
@[simp] theorem overridden_params (o : ResetOptions) : (overridden o s).params = s.params := setCells_params _ _

/-- Which options `Reset` has a move for (70_reset R161). -/
theorem resetOptionsLegal_iff (o : ResetOptions) :
    resetOptionsLegal o s = true ↔
      (∀ d es, s.params.stackDepth = some d → o.stack = some es → es.length ≤ d) ∧ ∀ c ∈ o.mem, c.1 ≤ maxAddr := by
  simp only [resetOptionsLegal, Bool.and_eq_true, List.all_eq_true, decide_eq_true_eq]
  refine and_congr ?_ Iff.rfl
  cases s.params.stackDepth <;> cases o.stack <;> simp

/-- Everything `Reset` can do (70_reset R160, R161). -/
theorem resetWith_cases (o : ResetOptions) :
    (resetOptionsLegal o s = true ∧ resetWith o s = .next (writeFont (overridden o s))) ∨
    (resetOptionsLegal o s = false ∧ resetWith o s = .refused .resetOptionOutOfRange) := by
  unfold resetWith
  cases resetOptionsLegal o s
  · exact .inr ⟨rfl, rfl⟩
  · exact .inl ⟨rfl, rfl⟩

end Sys2Proof.Machine
end

