-- ==== Sys2Proof/Laws/PerInstr.lean ====
section
/-! SUPPORT. The per-instruction family `EncodesRow`: the word of an instruction carries exactly the fixed bits of its row
of spec/opcode_table.json (30_encoding R55). -/

namespace Sys2Proof.Laws.EncodesRow

/-- The `mask` of the instruction's row. -/
def rowMask : Instr → Word
  | .cls => 0xFFFF#16
  | .ret => 0xFFFF#16
  | .sys _ => 0xF000#16
  | .jp _ => 0xF000#16
  | .call _ => 0xF000#16
  | .seImm _ _ => 0xF000#16
  | .sneImm _ _ => 0xF000#16
  | .seReg _ _ => 0xF000#16
  | .ldImm _ _ => 0xF000#16
  | .addImm _ _ => 0xF000#16
  | .ldReg _ _ => 0xF00F#16
  | .orReg _ _ => 0xF00F#16
  | .andReg _ _ => 0xF00F#16
  | .xorReg _ _ => 0xF00F#16
  | .addReg _ _ => 0xF00F#16
  | .sub _ _ => 0xF00F#16
  | .shr _ => 0xF00F#16
  | .subn _ _ => 0xF00F#16
  | .shl _ => 0xF00F#16
  | .sneReg _ _ => 0xF000#16
  | .ldI _ => 0xF000#16
  | .jpV0 _ => 0xF000#16
  | .rnd _ _ => 0xF000#16
  | .drw _ _ _ => 0xF000#16
  | .skp _ => 0xF0FF#16
  | .sknp _ => 0xF0FF#16
  | .ldVxDt _ => 0xF0FF#16
  | .ldVxK _ => 0xF0FF#16
  | .ldDtVx _ => 0xF0FF#16
  | .ldStVx _ => 0xF0FF#16
  | .addI _ => 0xF0FF#16
  | .ldF _ => 0xF0FF#16
  | .ldB _ => 0xF0FF#16
  | .ldMemVx _ => 0xF0FF#16
  | .ldVxMem _ => 0xF0FF#16

/-- The `match` of the instruction's row. -/
def rowMatch : Instr → Word
  | .cls => 0x00E0#16
  | .ret => 0x00EE#16
  | .sys _ => 0x0000#16
  | .jp _ => 0x1000#16
  | .call _ => 0x2000#16
  | .seImm _ _ => 0x3000#16
  | .sneImm _ _ => 0x4000#16
  | .seReg _ _ => 0x5000#16
  | .ldImm _ _ => 0x6000#16
  | .addImm _ _ => 0x7000#16
  | .ldReg _ _ => 0x8000#16
  | .orReg _ _ => 0x8001#16
  | .andReg _ _ => 0x8002#16
  | .xorReg _ _ => 0x8003#16
  | .addReg _ _ => 0x8004#16
  | .sub _ _ => 0x8005#16
  | .shr _ => 0x8006#16
  | .subn _ _ => 0x8007#16
  | .shl _ => 0x800E#16
  | .sneReg _ _ => 0x9000#16
  | .ldI _ => 0xA000#16
  | .jpV0 _ => 0xB000#16
  | .rnd _ _ => 0xC000#16
  | .drw _ _ _ => 0xD000#16
  | .skp _ => 0xE09E#16
  | .sknp _ => 0xE0A1#16
  | .ldVxDt _ => 0xF007#16
  | .ldVxK _ => 0xF00A#16
  | .ldDtVx _ => 0xF015#16
  | .ldStVx _ => 0xF018#16
  | .addI _ => 0xF01E#16
  | .ldF _ => 0xF029#16
  | .ldB _ => 0xF033#16
  | .ldMemVx _ => 0xF055#16
  | .ldVxMem _ => 0xF065#16

/-- The encoder's word agrees with the row's fixed bits. -/
def Statement (i : Instr) : Prop := encode i &&& rowMask i = rowMatch i

theorem packNNN_group (g : BitVec 4) (nnn : BitVec 12) : packNNN g nnn &&& 0xF000#16 = packNNN g 0#12 := by
  apply BitVec.eq_of_getLsbD_eq
  intro k hk
  simp only [packNNN, BitVec.getLsbD_and, BitVec.getLsbD_append]
  interval_cases k <;> simp

theorem packXKK_group (g : BitVec 4) (x : Reg) (kk : Byte) : packXKK g x kk &&& 0xF000#16 = packNNN g 0#12 := by
  rw [packXKK_eq, packNNN_group]

theorem packXYN_group (g : BitVec 4) (x y : Reg) (n : BitVec 4) : packXYN g x y n &&& 0xF000#16 = packNNN g 0#12 := by
  rw [packXYN_eq, packXKK_group]

theorem packXKK_selector (g : BitVec 4) (x : Reg) (kk : Byte) : packXKK g x kk &&& 0xF0FF#16 = packXKK g 0 kk := by
  apply BitVec.eq_of_getLsbD_eq
  intro k hk
  simp only [packXKK, BitVec.getLsbD_and, BitVec.getLsbD_append]
  interval_cases k <;> simp

theorem packXYN_selector (g : BitVec 4) (x y : Reg) (n : BitVec 4) :
    packXYN g x y n &&& 0xF00F#16 = packXYN g 0 0 n := by
  apply BitVec.eq_of_getLsbD_eq
  intro k hk
  simp only [packXYN, BitVec.getLsbD_and, BitVec.getLsbD_append]
  interval_cases k <;> simp

theorem cls : Statement .cls := rfl
theorem ret : Statement .ret := rfl
theorem sys (nnn : BitVec 12) : Statement (.sys nnn) := packNNN_group _ _
theorem jp (nnn : BitVec 12) : Statement (.jp nnn) := packNNN_group _ _
theorem call (nnn : BitVec 12) : Statement (.call nnn) := packNNN_group _ _
theorem seImm (x : Reg) (kk : Byte) : Statement (.seImm x kk) := packXKK_group _ _ _
theorem sneImm (x : Reg) (kk : Byte) : Statement (.sneImm x kk) := packXKK_group _ _ _
theorem seReg (x y : Reg) : Statement (.seReg x y) := packXYN_group _ _ _ _
theorem ldImm (x : Reg) (kk : Byte) : Statement (.ldImm x kk) := packXKK_group _ _ _
theorem addImm (x : Reg) (kk : Byte) : Statement (.addImm x kk) := packXKK_group _ _ _
theorem ldReg (x y : Reg) : Statement (.ldReg x y) := packXYN_selector _ _ _ _
theorem orReg (x y : Reg) : Statement (.orReg x y) := packXYN_selector _ _ _ _
theorem andReg (x y : Reg) : Statement (.andReg x y) := packXYN_selector _ _ _ _
theorem xorReg (x y : Reg) : Statement (.xorReg x y) := packXYN_selector _ _ _ _
theorem addReg (x y : Reg) : Statement (.addReg x y) := packXYN_selector _ _ _ _
theorem sub (x y : Reg) : Statement (.sub x y) := packXYN_selector _ _ _ _
theorem shr (x : Reg) : Statement (.shr x) := packXYN_selector _ _ _ _
theorem subn (x y : Reg) : Statement (.subn x y) := packXYN_selector _ _ _ _
theorem shl (x : Reg) : Statement (.shl x) := packXYN_selector _ _ _ _
theorem sneReg (x y : Reg) : Statement (.sneReg x y) := packXYN_group _ _ _ _
theorem ldI (nnn : BitVec 12) : Statement (.ldI nnn) := packNNN_group _ _
theorem jpV0 (nnn : BitVec 12) : Statement (.jpV0 nnn) := packNNN_group _ _
theorem rnd (x : Reg) (kk : Byte) : Statement (.rnd x kk) := packXKK_group _ _ _
theorem drw (x y : Reg) (n : BitVec 4) : Statement (.drw x y n) := packXYN_group _ _ _ _
theorem skp (x : Reg) : Statement (.skp x) := packXKK_selector _ _ _
theorem sknp (x : Reg) : Statement (.sknp x) := packXKK_selector _ _ _
theorem ldVxDt (x : Reg) : Statement (.ldVxDt x) := packXKK_selector _ _ _
theorem ldVxK (x : Reg) : Statement (.ldVxK x) := packXKK_selector _ _ _
theorem ldDtVx (x : Reg) : Statement (.ldDtVx x) := packXKK_selector _ _ _
theorem ldStVx (x : Reg) : Statement (.ldStVx x) := packXKK_selector _ _ _
theorem addI (x : Reg) : Statement (.addI x) := packXKK_selector _ _ _
theorem ldF (x : Reg) : Statement (.ldF x) := packXKK_selector _ _ _
theorem ldB (x : Reg) : Statement (.ldB x) := packXKK_selector _ _ _
theorem ldMemVx (x : Reg) : Statement (.ldMemVx x) := packXKK_selector _ _ _
theorem ldVxMem (x : Reg) : Statement (.ldVxMem x) := packXKK_selector _ _ _

end Sys2Proof.Laws.EncodesRow
end

