-- ==== Sys2Proof/Tests/Slice0.lean ====
section
/-! SUPPORT. The writer's own tests: terms that are no instruction, words written out from the opcode map, one-step vectors
of spec/95_test_vectors.md (each test names its vector), and for every statement with hypotheses a state that meets them. -/

namespace Sys2Proof.Tests

open Sys2Proof.Machine Sys2Proof.Claims

/-! ## Helpers -/

/-- The reset state, changed by `f`, with the word `w` at `pc`. -/
def at_ (w : Nat) (f : State → State := id) : State := (f State.reset).withFetchWord 16 w

/-- What `g` says of the state an outcome leaves, if it is a next state. -/
def seen {α : Type} (o : Host.Outcome State Fault Refusal) (g : State → α) : Option α :=
  match o with
  | .next t => some (g t)
  | .fault _ => none
  | .refused _ => none

/-- The fault an outcome ends in. -/
def faultOf (o : Host.Outcome State Fault Refusal) : Option Fault :=
  match o with
  | .next _ => none
  | .fault f => some f
  | .refused _ => none

/-- The instruction a word decodes to. -/
def dec (op : Word) : Option Instr := (decode op).toOption

/-- The reset state with another `SYS_BEHAVIOUR`. -/
def resetWithSys (b : SysBehaviour) : State :=
  { State.reset with params := { defaultParams with sysBehaviour := b } }

/-! ## WellFormed: the two terms that are no instruction, and their neighbours (30_encoding R55) -/

theorem test_wellFormed_refuses_sys_0E0 : Instr.wellFormed (.sys 0x0E0#12) = false := by decide
theorem test_wellFormed_refuses_sys_0EE : Instr.wellFormed (.sys 0x0EE#12) = false := by decide
theorem test_wellFormed_takes_sys_0E1 : Instr.wellFormed (.sys 0x0E1#12) = true := by decide

/-! ## Decoding: words written out bit by bit from 30_encoding R55 -/

theorem test_decode_group0 :
    dec 0b0000000011100000#16 = some .cls ∧ dec 0b0000000011101110#16 = some .ret ∧
    dec 0b0000111111101110#16 = some (.sys 0xFEE#12) ∧ dec 0b0000000111100000#16 = some (.sys 0x1E0#12) := by decide

theorem test_decode_control_transfer :
    dec 0b0001101010111100#16 = some (.jp 0xABC#12) ∧ dec 0b0010000010010101#16 = some (.call 0x095#12) ∧
    dec 0b0011001100101010#16 = some (.seImm 3 0x2A#8) ∧ dec 0b0100001100101010#16 = some (.sneImm 3 0x2A#8) ∧
    dec 0b0101000100100111#16 = some (.seReg 1 2) ∧ dec 0b1001000100101111#16 = some (.sneReg 1 2) ∧
    dec 0b1011001011111110#16 = some (.jpV0 0x2FE#12) := by decide

theorem test_decode_load_alu :
    dec 0b0110101000101111#16 = some (.ldImm 10 0x2F#8) ∧ dec 0b0111101011111111#16 = some (.addImm 10 0xFF#8) ∧
    dec 0b1000000100100000#16 = some (.ldReg 1 2) ∧ dec 0b1000000100100001#16 = some (.orReg 1 2) ∧
    dec 0b1000000100100010#16 = some (.andReg 1 2) ∧ dec 0b1000000100100011#16 = some (.xorReg 1 2) ∧
    dec 0b1000000100100100#16 = some (.addReg 1 2) ∧ dec 0b1000000100100101#16 = some (.sub 1 2) ∧
    dec 0b1000000100100110#16 = some (.shr 1) ∧ dec 0b1000000100100111#16 = some (.subn 1 2) ∧
    dec 0b1000000100101110#16 = some (.shl 1) ∧ dec 0b1100000100001111#16 = some (.rnd 1 0x0F#8) := by decide

theorem test_decode_index_memory_display :
    dec 0b1010001100000000#16 = some (.ldI 0x300#12) ∧ dec 0b1111001000011110#16 = some (.addI 2) ∧
    dec 0b1111001100101001#16 = some (.ldF 3) ∧ dec 0b1111101000110011#16 = some (.ldB 10) ∧
    dec 0b1111001001010101#16 = some (.ldMemVx 2) ∧ dec 0b1111001001100101#16 = some (.ldVxMem 2) ∧
    dec 0b1101000100100101#16 = some (.drw 1 2 5#4) := by decide

theorem test_decode_keypad_timers :
    dec 0b1110001010011110#16 = some (.skp 2) ∧ dec 0b1110001010100001#16 = some (.sknp 2) ∧
    dec 0b1111001100000111#16 = some (.ldVxDt 3) ∧ dec 0b1111010000001010#16 = some (.ldVxK 4) ∧
    dec 0b1111001100010101#16 = some (.ldDtVx 3) ∧ dec 0b1111001100011000#16 = some (.ldStVx 3) := by decide

/-- 95_test_vectors section 2.2: words of groups 8, E and F with an unknown selector. -/
theorem test_decode_rejects :
    dec 0x8128#16 = none ∧ dec 0x812D#16 = none ∧ dec 0x812F#16 = none ∧ dec 0xE100#16 = none ∧
    dec 0xE19F#16 = none ∧ dec 0xF100#16 = none ∧ dec 0xF166#16 = none ∧ dec 0xF1FF#16 = none := by decide

/-- 20_memory R32: the byte at the lower address is the high byte of the word. -/
theorem test_decodeTableWord_big_endian :
    decodeTableWord 16 0x2095 = some (.call 0x095#12) ∧ decodeTableWord 16 0x9520 = some (.sneReg 5 2) := by decide

/-! ## One step: the vectors of spec/95_test_vectors.md -/

/-- V-P1 -/
theorem test_cls : seen (step (at_ 0x00E0 fun s => (s.setFb (Vector.replicate 32 (-1#64))).setReg 15 1#8))
    (fun t => (t.pixel 0, t.pixel 2047, t.reg 15, t.pc)) = some (false, false, 1#8, 0x202#16) := by decide

/-- V-J6 -/
theorem test_ret_pops_newest : seen (step (at_ 0x00EE fun s => (s.setPc 0x400#16).setStack [0x0202#16, 0x030A#16]))
    (fun t => (t.pc, t.stack)) = some (0x030A#16, [0x0202#16]) := by decide
/-- V-J7 -/
theorem test_ret_underflow : faultOf (step (at_ 0x00EE)) = some .stackUnderflow := by decide

/-- Section 2.2 of the vectors: `0FEE` carries the whole word. -/
theorem test_sys_faults : faultOf (step (at_ 0x0FEE)) = some (.unrecognizedOpcode 0x0FEE#16) := by decide

/-- V-J1 -/
theorem test_jp : seen (step (at_ 0x1ABC)) (fun t => t.pc) = some 0x0ABC#16 := by decide

/-- S2, V-J3 -/
theorem test_call : seen (step (at_ 0x2095)) (fun t => (t.pc, t.stack)) = some (0x0095#16, [0x0202#16]) ∧
    seen (step (at_ 0x2300 (·.setPc 0xFFE#16))) (fun t => (t.pc, t.stack)) = some (0x0300#16, [0x1000#16]) := by decide
/-- V-J4, and the sixteenth entry still fits (program P5 (d)). -/
theorem test_call_overflow :
    faultOf (step (at_ 0x2300 (·.setStack (List.replicate 16 0x0202#16)))) = some .stackOverflow ∧
    seen (step (at_ 0x2300 (·.setStack (List.replicate 15 0x0202#16)))) (fun t => t.stack.length) = some 16 := by decide

/-- V-J9 -/
theorem test_seImm : seen (step (at_ 0x332A (·.setReg 3 0x2A#8))) (·.pc) = some 0x204#16 ∧
    seen (step (at_ 0x332B (·.setReg 3 0x2A#8))) (·.pc) = some 0x202#16 := by decide
/-- V-J10 -/
theorem test_sneImm : seen (step (at_ 0x432A (·.setReg 3 0x2A#8))) (·.pc) = some 0x202#16 ∧
    seen (step (at_ 0x432B (·.setReg 3 0x2A#8))) (·.pc) = some 0x204#16 := by decide
/-- V-J12, V-J13 -/
theorem test_seReg : seen (step (at_ 0x5120 fun s => (s.setReg 1 7#8).setReg 2 8#8)) (·.pc) = some 0x202#16 ∧
    seen (step (at_ 0x5127 fun s => (s.setReg 1 7#8).setReg 2 7#8)) (·.pc) = some 0x204#16 := by decide
/-- V-J16, V-J17 -/
theorem test_sneReg : seen (step (at_ 0x9120 fun s => (s.setReg 1 7#8).setReg 2 7#8)) (·.pc) = some 0x202#16 ∧
    seen (step (at_ 0x912F fun s => (s.setReg 1 7#8).setReg 2 8#8)) (·.pc) = some 0x204#16 := by decide
/-- V-J20, V-J21 -/
theorem test_jpV0 : seen (step (at_ 0xBFFF (·.setReg 0 0xFF#8))) (·.pc) = some 0x10FE#16 ∧
    seen (step (at_ 0xB2FE fun s => (s.setReg 0 2#8).setReg 2 0x55#8)) (·.pc) = some 0x0300#16 := by decide

/-- V-A2, V-J24 -/
theorem test_ldImm : seen (step (at_ 0x6FFF)) (·.reg 15) = some 0xFF#8 ∧
    seen (step (at_ 0x6000 (·.setPc 0xFFE#16))) (·.pc) = some 0x1000#16 := by decide
/-- S3a -/
theorem test_addImm_wraps : seen (step (at_ 0x7AFF (·.setReg 10 0xFF#8))) (fun t => (t.reg 10, t.reg 15, t.pc)) =
    some (0xFE#8, 0#8, 0x202#16) := by decide
/-- V-A3 -/
theorem test_addImm_vf : seen (step (at_ 0x7F01 (·.setReg 15 0xFF#8))) (·.reg 15) = some 0#8 := by decide
/-- V-A4 -/
theorem test_ldReg : seen (step (at_ 0x8120 (·.setReg 2 0x77#8))) (·.reg 1) = some 0x77#8 := by decide
/-- V-A5 -/
theorem test_orReg : seen (step (at_ 0x8121 fun s => ((s.setReg 1 0xF0#8).setReg 2 0x0F#8).setReg 15 0x55#8))
    (fun t => (t.reg 1, t.reg 15)) = some (0xFF#8, 0x55#8) := by decide
/-- V-A6 -/
theorem test_andReg : seen (step (at_ 0x8122 fun s => (s.setReg 1 0xF0#8).setReg 2 0x3C#8)) (·.reg 1) =
    some 0x30#8 := by decide
/-- V-A7 -/
theorem test_xorReg : seen (step (at_ 0x8123 fun s => (s.setReg 1 0xF0#8).setReg 2 0x3C#8)) (·.reg 1) =
    some 0xCC#8 := by decide
/-- V-A10, V-A11 -/
theorem test_addReg_carry :
    seen (step (at_ 0x8124 (·.setReg 1 0xFF#8))) (fun t => (t.reg 1, t.reg 15)) = some (0xFF#8, 0#8) ∧
    seen (step (at_ 0x8124 fun s => (s.setReg 1 0xFF#8).setReg 2 1#8)) (fun t => (t.reg 1, t.reg 15)) =
      some (0#8, 1#8) := by decide
/-- V-A14, V-A15 -/
theorem test_addReg_vf :
    seen (step (at_ 0x81F4 fun s => (s.setReg 1 0xF0#8).setReg 15 0x20#8)) (fun t => (t.reg 1, t.reg 15)) =
      some (0x10#8, 1#8) ∧
    seen (step (at_ 0x8F14 fun s => (s.setReg 1 0xF0#8).setReg 15 0x20#8)) (fun t => (t.reg 1, t.reg 15)) =
      some (0xF0#8, 0x10#8) := by decide
/-- V-A18, V-A20 -/
theorem test_sub :
    seen (step (at_ 0x8125 fun s => (s.setReg 1 0x20#8).setReg 2 0x20#8)) (fun t => (t.reg 1, t.reg 15)) =
      some (0#8, 0#8) ∧
    seen (step (at_ 0x8125 (·.setReg 2 1#8))) (fun t => (t.reg 1, t.reg 15)) = some (0xFF#8, 0#8) := by decide
/-- V-A22, V-A23 -/
theorem test_sub_vf : seen (step (at_ 0x8F15 fun s => (s.setReg 15 5#8).setReg 1 3#8)) (·.reg 15) = some 0xFE#8 ∧
    seen (step (at_ 0x81F5 fun s => (s.setReg 1 10#8).setReg 15 3#8)) (fun t => (t.reg 1, t.reg 15)) =
      some (9#8, 1#8) := by decide
/-- V-A26, V-A28 -/
theorem test_shr :
    seen (step (at_ 0x8126 fun s => (s.setReg 1 4#8).setReg 2 0xFF#8)) (fun t => (t.reg 1, t.reg 2, t.reg 15)) =
      some (2#8, 0xFF#8, 0#8) ∧
    seen (step (at_ 0x8106 (·.setReg 1 0xFF#8))) (fun t => (t.reg 1, t.reg 15)) = some (0x7F#8, 1#8) := by decide
/-- V-A29 -/
theorem test_shr_vf : seen (step (at_ 0x8F06 (·.setReg 15 0xFF#8))) (·.reg 15) = some 0#8 := by decide
/-- V-A30, V-A32 -/
theorem test_subn :
    seen (step (at_ 0x8127 fun s => (s.setReg 1 0x10#8).setReg 2 0x30#8)) (fun t => (t.reg 1, t.reg 15)) =
      some (0x20#8, 1#8) ∧
    seen (step (at_ 0x8127 fun s => (s.setReg 1 0x30#8).setReg 2 0x10#8)) (fun t => (t.reg 1, t.reg 15)) =
      some (0xE0#8, 0#8) := by decide
/-- V-A33, V-A34 -/
theorem test_subn_vf : seen (step (at_ 0x8F17 fun s => (s.setReg 1 10#8).setReg 15 3#8)) (·.reg 15) = some 9#8 ∧
    seen (step (at_ 0x81F7 fun s => (s.setReg 15 10#8).setReg 1 3#8)) (fun t => (t.reg 1, t.reg 15)) =
      some (0xFE#8, 1#8) := by decide
/-- V-A37, V-A38 -/
theorem test_shl :
    seen (step (at_ 0x812E fun s => (s.setReg 1 0x40#8).setReg 2 0xFF#8)) (fun t => (t.reg 1, t.reg 2, t.reg 15)) =
      some (0x80#8, 0xFF#8, 0#8) ∧
    seen (step (at_ 0x810E (·.setReg 1 0x80#8))) (fun t => (t.reg 1, t.reg 15)) = some (0#8, 1#8) := by decide
/-- V-A42 -/
theorem test_shl_vf : seen (step (at_ 0x8F0E (·.setReg 15 0xC1#8))) (·.reg 15) = some 2#8 := by decide
/-- V-A44: the draw is free, and masked away; it is counted. -/
theorem test_rnd_mask_zero : seen (step (at_ 0xC100 (·.setReg 1 9#8))) (fun t => (t.reg 1, t.draws)) =
    some (0#8, 1) := by
  have h : Config.rnd 0 &&& 0x00#8 = 0#8 := BitVec.and_zero
  exact congrArg (fun b => some (b, 1)) h

/-- V-M2 -/
theorem test_ldI : seen (step (at_ 0xAFFF)) (fun t => (t.i, t.pc)) = some (0x0FFF#16, 0x202#16) := by decide
/-- V-M4, V-M5 -/
theorem test_addI :
    seen (step (at_ 0xF21E fun s => ((s.setI 0xFFF#16).setReg 2 1#8).setReg 15 0x77#8)) (fun t => (t.i, t.reg 15)) =
      some (0x1000#16, 0x77#8) ∧
    seen (step (at_ 0xF21E fun s => (s.setI 0xFFFF#16).setReg 2 2#8)) (·.i) = some 0x0001#16 := by decide
/-- V-M7 -/
theorem test_ldF : seen (step (at_ 0xF329 (·.setReg 3 0x10#8))) (·.i) = some 0x0050#16 ∧
    seen (step (at_ 0xF329 (·.setReg 3 0xFF#8))) (·.i) = some 0x04FB#16 := by decide
/-- S4 -/
theorem test_ldB : seen (step (at_ 0xFA33 fun s => (s.setReg 10 213#8).setI 0x300#16))
    (fun t => (t.byte 0x300, t.byte 0x301, t.byte 0x302, t.i)) = some (2#8, 1#8, 3#8, 0x300#16) := by decide
/-- V-M11, V-M12 -/
theorem test_ldB_out_of_range :
    faultOf (step (at_ 0xFA33 fun s => (s.setReg 10 213#8).setI 0xFFE#16)) = some (.addressOutOfRange 0x1000) ∧
    faultOf (step (at_ 0xFA33 fun s => (s.setReg 10 213#8).setI 0xFFFF#16)) = some (.addressOutOfRange 0xFFFF) := by
  decide
/-- V-M13 -/
theorem test_ldMemVx :
    seen (step (at_ 0xF255 fun s => ((((s.setReg 0 0x11#8).setReg 1 0x22#8).setReg 2 0x33#8).setReg 3 0x44#8).setI 0x400#16))
      (fun t => (t.byte 0x400, t.byte 0x401, t.byte 0x402, t.byte 0x403, t.i)) =
      some (0x11#8, 0x22#8, 0x33#8, 0#8, 0x400#16) := by decide
/-- V-M16 -/
theorem test_ldMemVx_out_of_range :
    faultOf (step (at_ 0xFF55 (·.setI 0xFF1#16))) = some (.addressOutOfRange 0x1000) := by decide
/-- V-M18 -/
theorem test_ldVxMem :
    seen (step (at_ 0xF265 fun s => ((s.setBytes 0x400 [0x11#8, 0x22#8, 0x33#8, 0x44#8]).setI 0x400#16).setReg 3 0x99#8))
      (fun t => (t.reg 0, t.reg 1, t.reg 2, t.reg 3, t.i)) =
      some (0x11#8, 0x22#8, 0x33#8, 0x99#8, 0x400#16) := by decide
/-- V-M22: the default font at address 0. -/
theorem test_ldVxMem_font : seen (step (at_ 0xF465)) (fun t => (t.reg 0, t.reg 1, t.reg 4)) =
    some (0xF0#8, 0x90#8, 0xF0#8) := by decide

/-- V-P4 (both axes wrap): row 31 columns 63 and 0 to 6, row 0 columns 63 and 6. -/
theorem test_drw_wraps :
    seen (step (at_ 0xD122 fun s =>
      (((s.setBytes 0x300 [0xFF#8, 0x81#8]).setI 0x300#16).setReg 1 63#8).setReg 2 31#8))
      (fun t => (t.fb[31], t.fb[0], t.fb[1], t.reg 15)) =
      some (0x800000000000007F#64, 0x8000000000000040#64, 0#64, 0#8) := by decide
/-- V-P9 (`VF` is cleared before the coordinates are read) and V-P11. -/
theorem test_drw_vf :
    seen (step (at_ 0xDF15 fun s => (s.setReg 15 20#8).setReg 1 2#8)) (fun t => (t.fb[2], t.fb[3], t.reg 15)) =
      some (0xF#64, 0x9#64, 0#8) ∧
    faultOf (step (at_ 0xD012 (·.setI 0xFFF#16))) = some (.addressOutOfRange 0x1000) := by decide

/-- V-K1, V-K3 -/
theorem test_skp : seen (step (at_ 0xE29E fun s => (keyDown 5 s).setReg 2 5#8)) (·.pc) = some 0x204#16 ∧
    seen (step (at_ 0xE29E fun s => (keyDown 5 s).setReg 2 0x15#8)) (·.pc) = some 0x202#16 := by decide
/-- V-K4, V-K6 -/
theorem test_sknp : seen (step (at_ 0xE2A1 fun s => (keyDown 5 s).setReg 2 5#8)) (·.pc) = some 0x202#16 ∧
    seen (step (at_ 0xE2A1 fun s => (keyDown 5 s).setReg 2 0x15#8)) (·.pc) = some 0x204#16 := by decide
/-- V-K7 -/
theorem test_ldVxDt : seen (step (at_ 0xF307 (·.setDt 0x3C#8))) (fun t => (t.reg 3, t.dt)) =
    some (0x3C#8, 0x3C#8) := by decide
/-- V-K12, V-K14 -/
theorem test_ldVxK : seen (step (at_ 0xF40A (·.setReg 4 0x99#8))) (fun t => (t.reg 4, t.pc)) =
      some (0x99#8, 0x200#16) ∧
    seen (step (at_ 0xF40A fun s => keyDown 11 (keyDown 3 s))) (fun t => (t.reg 4, t.pc)) =
      some (3#8, 0x202#16) := by decide
/-- V-K8 -/
theorem test_ldDtVx : seen (step (at_ 0xF315 (·.setReg 3 0x3C#8))) (·.dt) = some 0x3C#8 := by decide
/-- V-K11 -/
theorem test_ldStVx : seen (step (at_ 0xF318 fun s => (s.setSt 7#8).setReg 3 0x20#8))
    (fun t => (t.beeps, t.st, t.pc)) = some (1, 7#8, 0x202#16) := by decide

/-! ## Fetch and host events -/

/-- 95_test_vectors section 2.1, fetch faults. -/
theorem test_fetch_faults : faultOf (step (at_ 0 (·.setPc 0xFFF#16))) = some (.addressOutOfRange 0x1000) ∧
    faultOf (step (at_ 0 (·.setPc 0x10FE#16))) = some (.addressOutOfRange 0x10FE) := by decide
/-- Program P5 (b): unloaded memory reads 0000. -/
theorem test_empty_memory_faults : faultOf (step State.reset) = some (.unrecognizedOpcode 0x0000#16) := by decide
/-- V-K16 -/
theorem test_tick : seen (hostEvent .tick ((State.reset.setDt 2#8).setSt 1#8)) (fun t => (t.dt, t.st)) =
    some (1#8, 0#8) ∧ seen (hostEvent .tick State.reset) (fun t => (t.dt, t.st)) = some (0#8, 0#8) := by decide
/-- V-K20 -/
theorem test_keys : seen (hostEvent (.keyDown 6) (keyDown 5 State.reset)) (·.keys) = some 0x0060#16 ∧
    seen (hostEvent (.keyUp 5) (keyDown 6 (keyDown 5 State.reset))) (·.keys) = some 0x0040#16 := by decide
/-- V-R3, with the start address given and by default (20_memory R42 "start = 0x200"). -/
theorem test_load : seen (hostEvent (.load [0x12#8, 0x00#8] 0x200) State.reset) (fun t => (t.mem, t.byte 0x201)) =
      some ([(0x200, 0x12#8)], 0x00#8) ∧
    seen (hostEvent (.load [0x12#8, 0x00#8]) State.reset) (·.mem) = some [(0x200, 0x12#8)] := by decide
/-- V-R2 -/
theorem test_reset_font_last : seen (hostEvent (.reset { mem := [(0x010, 0xAA#8), (0x300, 0xBB#8)], pc := some 0x300#16 })
    State.reset) (fun t => (t.byte 0x010, t.byte 0x300, t.pc)) = some (0x10#8, 0xBB#8, 0x300#16) := by decide +kernel

/-! ## Witnesses: for every statement with hypotheses, or with clauses that have them, a state and operands that meet them;
where a clause has a range, at its boundary -/

theorem witness_DecodeFollowsOpcodeMap : (0x0E1#12 : BitVec 12) ≠ 0x0E0#12 ∧ (0x0E1#12 : BitVec 12) ≠ 0x0EE#12 := by
  decide
theorem witness_UnrecognizedWordsExactly : decode 0x8128#16 = .error (.unrecognizedOpcode 0x8128#16) ∧
    decode 0xE19F#16 = .error (.unrecognizedOpcode 0xE19F#16) ∧
    decode 0xF166#16 = .error (.unrecognizedOpcode 0xF166#16) ∧ dec 0x8127#16 = some (.subn 1 2) := ⟨rfl, rfl, rfl, rfl⟩
theorem witness_NotExaminedNibblesDoNotMatter :
    decode 0x8106#16 = .ok (.shr 1) ∧ decode 0x81F6#16 = .ok (.shr 1) := ⟨rfl, rfl⟩
theorem witness_DecodeOfEncodeIsIdentity : (Instr.drw 1 2 5#4).wellFormed = true := rfl
theorem witness_EncodeOfDecodeKeepsExaminedBits : decode 0x5127#16 = .ok (.seReg 1 2) := rfl
theorem witness_StepRunsDecodedInstruction :
    fetch (State.reset.setPc 0xFFF#16) = .error (.addressOutOfRange 0x1000) ∧
    (fetch (at_ 0x8128) = .ok 0x8128#16 ∧ decode 0x8128#16 = .error (.unrecognizedOpcode 0x8128#16)) ∧
    (fetch (at_ 0x1ABC) = .ok 0x1ABC#16 ∧ decode 0x1ABC#16 = .ok (.jp 0xABC#12)) := ⟨rfl, ⟨rfl, rfl⟩, rfl, rfl⟩
theorem witness_FetchReadsTwoBytesBigEndian :
    (State.reset.setPc 0xFFE#16).pc.toNat ≤ 0xFFE ∧ 0xFFE < (State.reset.setPc 0xFFF#16).pc.toNat := by decide
theorem witness_PlacedInstructionRuns :
    (Instr.ldB 10).wellFormed = true ∧ (State.reset.setPc 0xFFE#16).pc.toNat ≤ 0xFFE := by decide
theorem witness_StoredBytesAreFetchedNext :
    let s := (State.reset.setPc 0xFFC#16).setI 0xFFE#16
    1 ≤ (1 : Reg).val ∧ s.i.toNat + (1 : Reg).val ≤ 0xFFF ∧ s.i = s.pc + 2#16 := by decide
theorem witness_SysFaultsUnlessParameterSaysOtherwise :
    State.reset.params.sysBehaviour = .fault ∧ (resetWithSys .nop).params.sysBehaviour = .nop ∧
    (resetWithSys .jump).params.sysBehaviour = .jump := ⟨rfl, rfl, rfl⟩
theorem witness_RetPopsIntoPc :
    (State.reset.setStack [0x0202#16, 0x1000#16]).stack = [0x0202#16] ++ [0x1000#16] ∧ State.reset.stack = [] := by
  decide
theorem witness_JpSetsPc : State.reset.pc.toNat = (0x200#12 : BitVec 12).toNat := by decide
theorem witness_CallPushesReturnAddress :
    let full := State.reset.setStack (List.replicate 16 0x0202#16)
    let last := State.reset.setStack (List.replicate 15 0x0202#16)
    last.params.stackDepth ≠ some last.stack.length ∧ full.params.stackDepth = some full.stack.length := by decide
theorem witness_SkipImmediateMovesPc : State.reset.reg 3 = 0x00#8 ∧ State.reset.reg 3 ≠ 0x2A#8 := by decide
theorem witness_SkipRegisterMovesPc :
    State.reset.reg 1 = State.reset.reg 2 ∧ (State.reset.setReg 1 7#8).reg 1 ≠ (State.reset.setReg 1 7#8).reg 2 := by
  decide
theorem witness_ReturnUndoesCall : ∃ t, exec (.call 0x300#12) State.reset = .next t ∧ t.stack = t.stack := ⟨_, rfl, rfl⟩
/-- The forms of the flag clauses of `LD Vx, kk`, `ADD Vx, kk`, `LD Vx, Vy`, the logic instructions, `RND`, `LD Vx, DT`,
`ADD Vx, Vy`: a destination that is not `VF`; and the equal registers of `LD Vx, Vy`. -/
theorem witness_FlagClauses : (1 : Reg) ≠ vf ∧ (0 : Reg) ≠ vf ∧ (14 : Reg) ≠ vf ∧ (15 : Reg) = vf ∧ (2 : Reg) = 2 := by
  decide
theorem witness_AddRegSetsCarry :
    let s := State.reset.setReg 1 0xFF#8
    ((s.reg 1).toNat + (s.reg 2).toNat = 255 ∧ (1 : Reg) ≠ vf) ∧
    (((s.setReg 2 1#8).reg 1).toNat + ((s.setReg 2 1#8).reg 2).toNat = 256 ∧ (1 : Reg) ≠ vf) := by decide
theorem witness_SubtractSetsGreaterFlag :
    ((1 : Reg) ≠ vf ∧ (2 : Reg) ≠ vf) ∧ ((1 : Reg) ≠ vf ∧ (15 : Reg) = vf) ∧ ((15 : Reg) = vf ∧ (1 : Reg) ≠ vf) ∧
    ((15 : Reg) = vf ∧ (15 : Reg) = vf) := by decide
theorem witness_ShiftsCaptureLostBit : (14 : Reg) ≠ vf ∧ (15 : Reg) = vf := by decide
theorem witness_RndMasksDraw : (0x00#8 : Byte) = 0#8 ∧ (1 : Reg) ≠ vf := by decide
theorem witness_LdBStoresDecimalDigits :
    (State.reset.setI 0xFFD#16).i.toNat + 2 ≤ 0xFFF ∧ 0xFFF < (State.reset.setI 0xFFE#16).i.toNat + 2 := by decide
/-- `LD [I], Vx` and `LD Vx, [I]`: the last legal `I` and the first illegal one, for the longest and the shortest form. -/
theorem witness_LdMemVxStoresRegisters :
    ((State.reset.setI 0xFF0#16).i.toNat + (15 : Reg).val ≤ 0xFFF ∧ (State.reset.setI 0xFFF#16).i.toNat + (0 : Reg).val ≤ 0xFFF) ∧
    (0xFFF < (State.reset.setI 0xFF1#16).i.toNat + (15 : Reg).val ∧
      0xFFF < (State.reset.setI 0x1000#16).i.toNat + (0 : Reg).val) := by decide
theorem witness_LdVxMemLoadsRegisters :
    (State.reset.setI 0xFF0#16).i.toNat + (15 : Reg).val ≤ 0xFFF ∧
    0xFFF < (State.reset.setI 0xFF1#16).i.toNat + (15 : Reg).val ∧ (2 : Reg) < 3 ∧ (2 : Reg) ≤ 2 := by decide
theorem witness_LoadBringsBackStoredRegisters :
    ∃ t, exec (.ldMemVx 2) (State.reset.setI 0x400#16) = .next t ∧ t.i = (State.reset.setI 0x400#16).i ∧
      ∀ a, t.byte a = t.byte a := ⟨_, rfl, rfl, fun _ => rfl⟩
theorem witness_DrwXorsSprite :
    ((1#4 : BitVec 4) ≠ 0#4 ∧ (State.reset.setI 0xFFF#16).i.toNat + (1#4 : BitVec 4).toNat - 1 ≤ 0xFFF) ∧
    ((0#4 : BitVec 4) = 0#4 ∧ 0xFFF < (State.reset.setI 0xFFFF#16).i.toNat + (0#4 : BitVec 4).toNat - 1) ∧
    ((2#4 : BitVec 4) ≠ 0#4 ∧ 0xFFF < (State.reset.setI 0xFFF#16).i.toNat + (2#4 : BitVec 4).toNat - 1) := by decide
/-- A sprite bit that meets a lit pixel, and one that meets an unlit one (vectors V-P7, V-P2). -/
theorem witness_DrwXorsSprite_collision :
    ((State.reset.setFb (Vector.replicate 32 1#64)).pixel (0 * 64 + 0) = true ∧
      spriteBit (State.reset.setFb (Vector.replicate 32 1#64)) 0 1 5 0 0 = true) ∧
    (State.reset.pixel (0 * 64 + 0) = false ∧ spriteBit State.reset 0 1 5 0 0 = true) := by decide
theorem witness_DrawingTwiceRestoresFramebuffer :
    (1 : Reg) ≠ vf ∧ (2 : Reg) ≠ vf ∧ ∃ t, exec (.drw 1 2 5#4) State.reset = .next t := ⟨by decide, by decide, _, rfl⟩
theorem witness_FramebufferSeenOnlyThroughCollision :
    (∃ t, hostEvent .step (at_ 0x1ABC) = .next t ∧ (∀ o, Event.step ≠ .reset o) ∧
      ∀ i, fetchDecode (at_ 0x1ABC) = .ok i → i ≠ .cls ∧ ∀ x y n, i ≠ .drw x y n) ∧
    (∃ t, hostEvent .tick State.reset = .next t) ∧ exec .ret State.reset = .fault .stackUnderflow := by
  refine ⟨⟨_, rfl, nofun, fun i h => ?_⟩, ⟨_, rfl⟩, rfl⟩
  have h' : (.jp 0xABC#12 : Instr) = i := Except.ok.inj h
  exact h' ▸ ⟨nofun, nofun⟩
theorem witness_KeySkipsTestHeldKey :
    Held ((keyDown 15 State.reset).setReg 2 15#8) 15 ∧ ¬ Held ((keyDown 0 State.reset).setReg 2 16#8) 16 := by
  unfold Held; decide
theorem witness_KeyWaitTakesHeldKey : (∀ k : Key, State.reset.keys.getLsbD k.val = false) ∧
    ((∃ k : Key, (keyDown 15 State.reset).keys.getLsbD k.val = true) ∧ State.reset.params.keySelect = .lowest) ∧
    ((∃ k : Key, (keyDown 0 State.reset).keys.getLsbD k.val = true)) := by decide
theorem witness_KeyEventsSetOneKey :
    (keyDown 5 State.reset).keys.getLsbD (5 : Key).val = true ∧ State.reset.keys.getLsbD (5 : Key).val = false := by decide
theorem witness_LoadCopiesBytes : 0x200 + (List.replicate 3584 0x00#8).length ≤ 4096 ∧ 4096 + ([] : List Byte).length ≤ 4096 ∧
    [0x12#8, 0x00#8][1]? = some 0x00#8 ∧ (List.replicate 3584 0x00#8).length ≤ 3584 :=
  ⟨by rw [List.length_replicate], by decide, rfl, by rw [List.length_replicate]⟩
theorem witness_ResetWritesFontLast : ∃ t, hostEvent (.reset { mem := [(0x010, 0xAA#8)] }) State.reset = .next t :=
  ⟨_, rfl⟩
/-- Options within their ranges at the boundary, and one past each boundary. -/
theorem witness_ResetAppliesOverrides :
    resetOptionsLegal { stack := some (List.replicate 16 0x0202#16), mem := [(0xFFF, 0xAA#8)] } State.reset = true ∧
    resetOptionsLegal { stack := some (List.replicate 17 0x0202#16) } State.reset = false ∧
    resetOptionsLegal { mem := [(0x1000, 0xAA#8)] } State.reset = false := by decide
theorem witness_ResetAppliesOverrides_legal :
    (∀ d es, State.reset.params.stackDepth = some d → ({ mem := [(0xFFF, 0xAA#8)] } : ResetOptions).stack = some es →
      es.length ≤ d) ∧ ∀ c ∈ [(0xFFF, 0xAA#8)], (c : Host.Cell).1 ≤ 0xFFF :=
  ⟨(fun _ _ _ h => nomatch h), by decide⟩
theorem witness_StepKeepsInvariant :
    (at_ 0x2095).Inv ∧ ∃ t, step (at_ 0x2095) = .next t := ⟨by decide, _, rfl⟩
theorem witness_EveryEventKeepsInvariant : State.reset.Inv ∧ ∃ t, hostEvent (.load [0x12#8] 0x200) State.reset = .next t :=
  ⟨by decide, _, rfl⟩
theorem witness_OnlyNamedInstructionsWrite : ∃ t, exec (.jp 0x300#12) State.reset = .next t ∧
    (∀ x, (Instr.jp 0x300#12) ≠ .ldDtVx x) ∧ (Instr.jp 0x300#12) ≠ .ret := ⟨_, rfl, nofun, nofun⟩
theorem witness_PcAfterEveryInstruction : (∃ t, exec (.jp 0x300#12) State.reset = .next t) ∧
    (∃ t, exec (.sys 0x300#12) (resetWithSys .jump) = .next t) ∧
    step State.reset = .fault (.unrecognizedOpcode 0x0000#16) := ⟨⟨_, rfl⟩, ⟨_, rfl⟩, rfl⟩
/-- A tick, an event that is no tick, and a step that is no `LD DT, Vx`. -/
theorem witness_DelayTimerReadAndWrite : (1 : Reg) ≠ vf ∧ (∃ t, hostEvent .tick State.reset = .next t) ∧
    (∃ t, hostEvent (.keyDown 5) State.reset = .next t) ∧
    (∃ t, hostEvent .step (at_ 0x1ABC) = .next t) ∧ ∀ x, fetchDecode (at_ 0x1ABC) ≠ .ok (.ldDtVx x) :=
  ⟨by decide, ⟨_, rfl⟩, ⟨_, rfl⟩, ⟨_, rfl⟩, fun x h => by cases (Except.ok.inj h : Instr.jp 0xABC#12 = .ldDtVx x)⟩
/-- A jump that reaches 0x10FE, and a return to a value above it. -/
theorem witness_PcBoundedOrPopped : seen (step (at_ 0xBFFF (·.setReg 0 0xFF#8))) (·.pc.toNat) = some 0x10FE ∧
    seen (step (at_ 0x00EE (·.setStack [0xFFFF#16]))) (·.pc.toNat) = some 0xFFFF := by decide
theorem witness_FaultsExactlyOnListedCauses :
    executeFault State.reset .ret = some .stackUnderflow ∧ executeFault State.reset .cls = none ∧
    executeFault (State.reset.setI 0xFFE#16) (.ldB 0) = some (.addressOutOfRange 0x1000) ∧
    executeFault (State.reset.setI 0xFFD#16) (.ldB 0) = none := by decide
theorem witness_StoppedStateStaysStopped : Stopped (at_ 0x1200) := ⟨0x200#12, rfl, rfl⟩
theorem witness_RegisterInstructionFrames : (∃ kk, Instr.ldImm 1 7#8 = .ldImm 1 kk ∨ Instr.ldImm 1 7#8 = .addImm 1 kk) ∧
    (∃ y, Instr.addReg 15 2 = .addReg 15 y) := ⟨⟨7#8, .inl rfl⟩, 2, rfl⟩
theorem witness_ControlTransferFrames : (∃ nnn, Instr.jp 0x300#12 = .jp nnn) ∧
    (∃ t, exec (.call 0x300#12) State.reset = .next t) ∧
    ∃ t, exec .ret (State.reset.setStack [0x0202#16]) = .next t := ⟨⟨_, rfl⟩, ⟨_, rfl⟩, _, rfl⟩
theorem witness_IndexInstructionFrames : ∃ nnn, Instr.ldI 0x300#12 = .ldI nnn := ⟨_, rfl⟩
theorem witness_MemoryInstructionFrames : (∃ t, exec (.ldB 10) (State.reset.setI 0xFFD#16) = .next t) ∧
    (∃ t, exec (.ldMemVx 15) (State.reset.setI 0xFF0#16) = .next t) ∧
    ∃ t, exec (.ldVxMem 15) (State.reset.setI 0xFF0#16) = .next t := ⟨⟨_, rfl⟩, ⟨_, rfl⟩, _, rfl⟩
theorem witness_DeviceInstructionFrames : ∃ t, exec (.drw 15 15 15#4) State.reset = .next t := ⟨_, rfl⟩

end Sys2Proof.Tests
end

section
/-! Main memory: what a block write and a `Load` leave behind (20_memory R34, R42). -/

namespace Sys2Proof.Machine

open Sys2Proof.Claims

variable (s : State)

/-- The byte at offset `j` of the block stands at `base + j` after a block write. -/
theorem State.setBytes_byte_of_getElem? {base j : Nat} {bs : List Byte} {b : Byte} (h : bs[j]? = some b) :
    (s.setBytes base bs).byte (base + j) = b := by
  simp [State.setBytes_byte, List.getD, h]

theorem State.setBytes_byte_outside {base a : Nat} {bs : List Byte} (h : a < base ∨ base + bs.length ≤ a) :
    (s.setBytes base bs).byte a = s.byte a := by
  rw [State.setBytes_byte]
  rcases h with hlow | hhigh
  · rw [if_neg (by omega)]
  · rw [if_pos (by omega), List.getD_eq_default _ _ (by omega)]

theorem State.setBytes_keepsAllBut_mem (base : Nat) (bs : List Byte) :
    KeepsAllBut [.mem] s (s.setBytes base bs) := by
  refine ⟨fun p hp => ?_, s.setBytes_params base bs⟩
  cases p <;> simp_all [Part.Same]

/-- A `Load` that fits in memory is the block write of its bytes. -/
theorem load_eq_setBytes {bytes : List Byte} {start : Nat} (h : start + bytes.length ≤ 4096) :
    load bytes s start = .next (s.setBytes start bytes) := by
  rcases load_cases s bytes start with ⟨_, hload⟩ | ⟨hbeyond, _⟩
  · exact hload
  · omega

/-- What a `Load` that fits in memory does, for any start address (20_memory R42). -/
theorem hostEvent_load_spec {bytes : List Byte} {start : Nat} (h : start + bytes.length ≤ 4096) :
    ∃ t, hostEvent (.load bytes start) s = .next t ∧
      (∀ (j : Nat) (b : Byte), bytes[j]? = some b → t.byte (start + j) = b) ∧
      (∀ a, a < start ∨ start + bytes.length ≤ a → t.byte a = s.byte a) ∧ KeepsAllBut [.mem] s t :=
  ⟨s.setBytes start bytes, load_eq_setBytes s h, fun _ _ => s.setBytes_byte_of_getElem?,
    fun _ => s.setBytes_byte_outside, s.setBytes_keepsAllBut_mem start bytes⟩

/-- Settles O43: a `Load` within memory is a block write, and the default start address is `ENTRY`, 0x200. -/
theorem loadCopiesBytes : Obligations.LoadCopiesBytes :=
  ⟨fun _ _ s h => hostEvent_load_spec s h,
    fun bytes s h => hostEvent_load_spec s (start := 0x200) (show 0x200 + bytes.length ≤ 4096 by omega)⟩

end Sys2Proof.Machine
end

section
/-! A rejected word is the word the reject carries, and one step by the outcome of fetch and decode (30_encoding R50, R56). -/

namespace Sys2Proof

variable {op : Word} {e : DecodeReject}

theorem decodeGroup8_eq_error (h : decodeGroup8 op = .error e) : e = .unrecognizedOpcode op := by
  unfold decodeGroup8 at h
  split at h <;> cases h
  rfl

theorem decodeGroupE_eq_error (h : decodeGroupE op = .error e) : e = .unrecognizedOpcode op := by
  unfold decodeGroupE at h
  split_ifs at h
  exact (Except.error.inj h).symm

theorem decodeGroupF_eq_error (h : decodeGroupF op = .error e) : e = .unrecognizedOpcode op := by
  unfold decodeGroupF at h
  split_ifs at h
  exact (Except.error.inj h).symm

/-- Only groups 8, E and F reject a word, and each names the word it was given (30_encoding R56, R60). -/
theorem decode_eq_error (h : decode op = .error e) : e = .unrecognizedOpcode op := by
  unfold decode at h
  split at h
  case h_9 => exact decodeGroup8_eq_error h
  case h_15 => exact decodeGroupE_eq_error h
  case h_16 => exact decodeGroupF_eq_error h
  all_goals cases h
  rfl

end Sys2Proof

namespace Sys2Proof.Machine

open Sys2Proof.Claims

variable {s : State} {op : Word}

theorem fetch_eq_ok (h : fetch s = .ok op) : op = s.byte s.pc.toNat ++ s.byte (s.pc.toNat + 1) := by
  rcases fetch_cases s with ⟨_, hok⟩ | ⟨_, herror⟩
  · exact Except.ok.inj (h.symm.trans hok)
  · cases h.symm.trans herror

theorem step_of_fetch_error {f : Fault} (h : fetch s = .error f) : step s = .fault f := by
  simp [step, fetchDecode, h, raise]

theorem step_of_decode_ok {i : Instr} (hf : fetch s = .ok op) (hd : decode op = .ok i) : step s = exec i s := by
  simp [step, fetchDecode_eq_ok.2 ⟨op, hf, hd⟩]

/-- A rejected word faults the step with that word (60_exceptions R141). -/
theorem step_of_decode_error {e : DecodeReject} (hf : fetch s = .ok op) (hd : decode op = .error e) :
    step s = .fault (.unrecognizedOpcode op) := by
  obtain rfl := decode_eq_error hd
  simp [step, fetchDecode, hf, hd, decodeFault, raise]

/-- Settles O7: one rule of `step` for each way fetch and decode can end. -/
theorem stepRunsDecodedInstruction : Obligations.StepRunsDecodedInstruction :=
  fun _ => ⟨fun _ => step_of_fetch_error,
    fun _ hf => ⟨fetch_eq_ok hf, fun _ => step_of_decode_error hf, fun _ => step_of_decode_ok hf⟩⟩

end Sys2Proof.Machine
end

section
/-! Control transfer: the next state of the jumps and skips, and the two ways `RET` can end, said once each
(40_control_transfer R71, R72, R74, R75, R79). -/

namespace Sys2Proof.Machine

variable {s : State}

@[simp] theorem exec_jp (nnn : BitVec 12) (s : State) : exec (.jp nnn) s = .next (s.setPc (zext16 nnn)) := rfl

@[simp] theorem exec_jpV0 (nnn : BitVec 12) (s : State) : exec (.jpV0 nnn) s = .next (s.setPc (s.offsetTarget nnn)) :=
  rfl

@[simp] theorem exec_seImm (x : Reg) (kk : Byte) (s : State) :
    exec (.seImm x kk) s = .next (s.skipIf (s.reg x == kk)) := rfl

@[simp] theorem exec_sneImm (x : Reg) (kk : Byte) (s : State) :
    exec (.sneImm x kk) s = .next (s.skipIf (s.reg x != kk)) := rfl

/-- The popped entry goes into `pc` as it is (40_control_transfer R71). -/
theorem exec_ret_of_stack_append {es : List Word} {a : Word} (h : s.stack = es ++ [a]) :
    exec .ret s = .next ((s.setPc a).setStack es) := by
  rcases execRet_cases s with ⟨b, hlast, hnext⟩ | ⟨hnil, _⟩
  · rw [h, List.getLast?_concat, Option.some.injEq] at hlast
    rw [h, List.dropLast_concat, ← hlast] at hnext
    exact hnext
  · simp [h] at hnil

theorem exec_ret_of_stack_nil (h : s.stack = []) : exec .ret s = .fault .stackUnderflow := by
  rcases execRet_cases s with ⟨b, hlast, _⟩ | ⟨_, hfault⟩
  · simp [h] at hlast
  · exact hfault

@[simp] theorem State.setPc_self (s : State) : s.setPc s.pc = s := rfl

theorem State.skipIf_pc_of_true {c : Bool} (h : c = true) : (s.skipIf c).pc = s.pc + 4#16 := by simp [h]

theorem State.skipIf_pc_of_false {c : Bool} (h : c = false) : (s.skipIf c).pc = s.pc + 2#16 := by simp [h]

/-- The largest target is 255 + 4095 = 0x10FE, so the 16-bit sum never wraps (40_control_transfer R79). -/
theorem State.offsetTarget_toNat (s : State) (nnn : BitVec 12) :
    (s.offsetTarget nnn).toNat = (s.reg 0).toNat + nnn.toNat := by
  have hreg := (s.reg 0).isLt
  have haddr := nnn.isLt
  rw [State.offsetTarget, BitVec.toNat_add, zext16_toNat _ (by decide), zext16_toNat _ (by decide)]
  exact Nat.mod_eq_of_lt (by omega)

/-- Settles O12: one rule of `RET` for a stack with a newest entry and one for the empty stack. -/
theorem retPopsIntoPc : Obligations.RetPopsIntoPc :=
  fun _ => ⟨fun _ _ h => ⟨_, exec_ret_of_stack_append h, rfl, rfl, rfl⟩, exec_ret_of_stack_nil⟩

/-- Settles O13: `JP` is `setPc` of its address, and a jump to `pc` itself writes back what `pc` holds. -/
theorem jpSetsPc : Obligations.JpSetsPc := by
  intro nnn s
  have htarget : (zext16 nnn).toNat = nnn.toNat := zext16_toNat nnn (by decide)
  refine ⟨⟨_, exec_jp nnn s, htarget, rfl, rfl⟩, fun hself => ?_⟩
  have hpc : zext16 nnn = s.pc := BitVec.eq_of_toNat_eq (htarget.trans hself.symm)
  rw [exec_jp, hpc, State.setPc_self]

/-- Settles O15: both skips are `skipIf`, on the condition and on its negation. -/
theorem skipImmediateMovesPc : Obligations.SkipImmediateMovesPc := by
  intro x kk s
  constructor
  · exact ⟨_, exec_seImm x kk s, s.skipIf_reg _ vf, fun heq => State.skipIf_pc_of_true (beq_iff_eq.2 heq),
      fun hne => State.skipIf_pc_of_false (beq_eq_false_iff_ne.2 hne)⟩
  · exact ⟨_, exec_sneImm x kk s, s.skipIf_reg _ vf, fun hne => State.skipIf_pc_of_true (bne_iff_ne.2 hne),
      fun heq => State.skipIf_pc_of_false (bne_eq_false_iff_eq.2 heq)⟩

/-- Settles O17: the target's value is the exact sum, and a jump keeps the registers. -/
theorem jpV0AddsV0 : Obligations.JpV0AddsV0 :=
  fun nnn s => ⟨_, exec_jpV0 nnn s, s.offsetTarget_toNat nnn, rfl⟩

end Sys2Proof.Machine
end

section
/-! Register loads: the next state of the writes that end in `next`, and what it reads back (41_load_alu R91 to R93). -/

namespace Sys2Proof.Machine

open Sys2Proof.Claims

@[simp] theorem exec_ldImm (x : Reg) (kk : Byte) (s : State) :
    exec (.ldImm x kk) s = .next (s.setReg x kk).advance := rfl

@[simp] theorem exec_addImm (x : Reg) (kk : Byte) (s : State) :
    exec (.addImm x kk) s = .next (s.setReg x (s.reg x + kk)).advance := rfl

@[simp] theorem exec_ldReg (x y : Reg) (s : State) :
    exec (.ldReg x y) s = .next (s.setReg x (s.reg y)).advance := rfl

variable (s : State)

/-- Writing back what a register holds changes nothing. -/
@[simp] theorem State.setReg_self (x : Reg) : s.setReg x (s.reg x) = s := by
  have hv : s.v.set x s.v[x] = s.v := Vector.set_getElem_self x.isLt
  rw [State.setReg, State.reg, hv]

theorem State.setReg_advance_reg_self (x : Reg) (b : Byte) : (s.setReg x b).advance.reg x = b := by
  rw [State.advance_reg, State.setReg_reg_self]

theorem State.setReg_advance_reg_ne {x r : Reg} (b : Byte) (h : x ≠ r) :
    (s.setReg x b).advance.reg r = s.reg r := by
  rw [State.advance_reg, State.setReg_reg_ne s x b h.symm]

theorem State.advance_keepsAllBut_pc : KeepsAllBut [.pc] s s.advance := by
  refine ⟨fun p hp => ?_, s.advance_params⟩
  cases p <;> simp_all [Part.Same]

/-- Settles O19: `LD Vx, kk` is one register write, then `next`. -/
theorem ldImmLoadsByte : Obligations.LdImmLoadsByte :=
  fun x kk s => ⟨_, exec_ldImm x kk s, s.setReg_advance_reg_self x kk, rfl, s.setReg_advance_reg_ne kk⟩

/-- Settles O20: the one register `ADD Vx, kk` writes takes the byte sum, which is the sum modulo 256. -/
theorem addImmWrapsWithoutFlag : Obligations.AddImmWrapsWithoutFlag := by
  intro x kk s
  refine ⟨_, exec_addImm x kk s, ?_, rfl, s.setReg_advance_reg_ne _⟩
  rw [State.setReg_advance_reg_self, BitVec.toNat_add]

/-- Settles O21: the copy is one register write, and with `x = y` it writes back what the register holds. -/
theorem ldRegCopiesRegister : Obligations.LdRegCopiesRegister := by
  intro x y s
  refine ⟨_, exec_ldReg x y s, s.setReg_advance_reg_self x _, rfl, s.setReg_advance_reg_ne _, ?_⟩
  rintro rfl
  rw [State.setReg_self]
  exact s.advance_keepsAllBut_pc

end Sys2Proof.Machine
end

section
/-! Index register: the next state of `LD I, addr`, and the value it leaves in `I` (42_index_memory R111). -/

namespace Sys2Proof.Machine

@[simp] theorem exec_ldI (nnn : BitVec 12) (s : State) :
    exec (.ldI nnn) s = .next (s.setI (zext16 nnn)).advance := rfl

theorem State.setI_zext16_advance_i_toNat (s : State) (nnn : BitVec 12) :
    (s.setI (zext16 nnn)).advance.i.toNat = nnn.toNat := by
  rw [State.advance_i, State.setI_i, zext16_toNat nnn (by decide)]

/-- Settles O27: a 12-bit address keeps its value in `I`, so it is below 4096; `setI` and `next` write no register. -/
theorem ldILoadsAddress : Obligations.LdILoadsAddress := by
  intro nnn s
  have hi := s.setI_zext16_advance_i_toNat nnn
  have hbound : nnn.toNat ≤ 0x0FFF := Nat.le_of_lt_succ nnn.isLt
  exact ⟨_, exec_ldI nnn s, hi, hi.trans_le hbound, rfl, rfl⟩

end Sys2Proof.Machine
end

section
/-! Frames compose: no change, a change of fewer parts, and one change after another. -/

namespace Sys2Proof.Claims

open Sys2Proof.Machine

variable {s t u : State} {l l' : List Part}

theorem Part.Same.trans {p : Part} (hst : p.Same s t) (htu : p.Same t u) : p.Same s u := by
  cases p
  case regs => exact fun r => (htu r).trans (hst r)
  case mem => exact fun a => (htu a).trans (hst a)
  case fb => exact fun q => (htu q).trans (hst q)
  all_goals exact Eq.trans htu hst

theorem KeepsAllBut.refl (l : List Part) (s : State) : KeepsAllBut l s s :=
  ⟨fun p _ => by cases p <;> simp [Part.Same], rfl⟩

theorem KeepsAllBut.mono (h : KeepsAllBut l s t) (hsub : l ⊆ l') : KeepsAllBut l' s t :=
  ⟨fun p hp => h.1 p (fun hmem => hp (hsub hmem)), h.2⟩

theorem KeepsAllBut.trans (hst : KeepsAllBut l s t) (htu : KeepsAllBut l' t u) : KeepsAllBut (l ++ l') s u := by
  refine ⟨fun p hp => ?_, htu.2.trans hst.2⟩
  obtain ⟨hl, hl'⟩ := not_or.1 (fun hor => hp (List.mem_append.2 hor))
  exact (hst.1 p hl).trans (htu.1 p hl')

end Sys2Proof.Claims
end

section
/-! The framebuffer and the rest of the machine: what replacing it changes, and `CLS` (10_state R22, 43_display R121). -/

namespace Sys2Proof.Machine

open Sys2Proof.Claims

variable {s t : State}

@[simp] theorem State.setFb_self (s : State) : s.setFb s.fb = s := rfl

theorem State.setFb_keepsAllBut_fb (s : State) (fb : Framebuffer) : KeepsAllBut [.fb] s (s.setFb fb) := by
  refine ⟨fun p hp => ?_, s.setFb_params fb⟩
  cases p <;> simp_all [Part.Same]

theorem State.pixel_eq_of_fb_eq (h : t.fb = s.fb) (p : Nat) : t.pixel p = s.pixel p := by
  rw [State.pixel, h, State.pixel]

@[simp] theorem exec_cls (s : State) : exec .cls s = .next (s.setFb (Vector.replicate 32 0#64)).advance := rfl

/-- Settles O33: `CLS` replaces the framebuffer by the blank one, then `next`. -/
theorem clsClearsEveryPixel : Obligations.ClsClearsEveryPixel :=
  fun s => ⟨_, exec_cls s, fun _ _ => Framebuffer.pixel_blank _ _, rfl,
    (s.setFb_keepsAllBut_fb _).trans (State.advance_keepsAllBut_pc _)⟩

end Sys2Proof.Machine
end

section
/-! Noninterference of the framebuffer: an instruction that is neither `CLS` nor `DRW` commutes with replacing the
framebuffer. So it answers the same whatever the framebuffer is, and it keeps the framebuffer it was given
(43_display R123). -/

namespace Sys2Proof.Machine

open Sys2Proof.Claims

/-- The outcome with its next state changed by `g`; a fault or a refusal as it is. -/
def mapNext (g : State → State) : Host.Outcome State Fault Refusal → Host.Outcome State Fault Refusal
  | .next s => .next (g s)
  | .fault f => .fault f
  | .refused r => .refused r

@[simp] theorem mapNext_next (g : State → State) (s : State) : mapNext g (.next s) = .next (g s) := rfl

@[simp] theorem mapNext_fault (g : State → State) (f : Fault) : mapNext g (.fault f) = .fault f := rfl

variable (s : State) (fb : Framebuffer)

/-! ## The operations that branch or recurse commute with `setFb` -/

theorem State.skipIf_setFb (c : Bool) : (s.setFb fb).skipIf c = (s.skipIf c).setFb fb := by cases c <;> rfl

theorem State.setBytes_setFb (base : Nat) (bs : List Byte) :
    (s.setFb fb).setBytes base bs = (s.setBytes base bs).setFb fb := by
  induction bs generalizing s base with
  | nil => rfl
  | cons b bs ih => exact ih (s.setByte base b) (base + 1)

theorem execSys_setFb (nnn : BitVec 12) : execSys nnn (s.setFb fb) = mapNext (·.setFb fb) (execSys nnn s) := by
  rw [execSys, execSys, State.setFb_params]
  cases s.params.sysBehaviour <;> rfl

theorem execRet_setFb : execRet (s.setFb fb) = mapNext (·.setFb fb) (execRet s) := by
  rw [execRet, execRet, State.setFb_stack]
  cases s.stack.getLast? <;> rfl

theorem execCall_setFb (nnn : BitVec 12) : execCall nnn (s.setFb fb) = mapNext (·.setFb fb) (execCall nnn s) := by
  have hfull : (s.setFb fb).stackFull = s.stackFull := rfl
  rw [execCall, execCall, hfull]
  cases s.stackFull <;> rfl

theorem storeNext_setFb (bs : List Byte) :
    storeNext bs (s.setFb fb) = mapNext (·.setFb fb) (storeNext bs s) := by
  have hbase : (s.setFb fb).base = s.base := rfl
  rw [storeNext, storeNext, storeBlock, storeBlock, hbase, State.setBytes_setFb]
  cases rangeFault s.base bs.length <;> rfl

theorem execLdVxMem_setFb (x : Reg) : execLdVxMem x (s.setFb fb) = mapNext (·.setFb fb) (execLdVxMem x s) := by
  have hload : loadBlock (s.setFb fb) (s.setFb fb).base (x.val + 1) = loadBlock s s.base (x.val + 1) := rfl
  rw [execLdVxMem, execLdVxMem, hload]
  cases loadBlock s s.base (x.val + 1) <;> rfl

theorem execLdVxK_setFb (x : Reg) : execLdVxK x (s.setFb fb) = mapNext (·.setFb fb) (execLdVxK x s) := by
  have hheld : (s.setFb fb).heldKeys = s.heldKeys := rfl
  rw [execLdVxK, execLdVxK, hheld, State.setFb_params]
  cases s.heldKeys with
  | nil => rfl
  | cons k ks => cases s.params.keySelect <;> rfl

/-! ## The instructions -/

/-- Every instruction but `CLS` and `DRW` commutes with replacing the framebuffer. -/
theorem exec_setFb {i : Instr} (hcls : i ≠ .cls) (hdrw : ∀ x y n, i ≠ .drw x y n) :
    exec i (s.setFb fb) = mapNext (·.setFb fb) (exec i s) := by
  cases i
  case cls => exact absurd rfl hcls
  case drw x y n => exact absurd rfl (hdrw x y n)
  case sys nnn => exact execSys_setFb s fb nnn
  case ret => exact execRet_setFb s fb
  case call nnn => exact execCall_setFb s fb nnn
  case seImm | sneImm | seReg | sneReg | skp | sknp => exact congrArg _ (s.skipIf_setFb fb _)
  case ldB | ldMemVx => exact storeNext_setFb s fb _
  case ldVxMem x => exact execLdVxMem_setFb s fb x
  case ldVxK x => exact execLdVxK_setFb s fb x
  -- what is left is a chain of field updates, none of them of `fb`
  all_goals rfl

/-- Whether `DRW` faults, and the sprite it draws, do not depend on the framebuffer (43_display R122). -/
theorem exec_drw_setFb (x y : Reg) (n : BitVec 4) :
    (∃ rows, exec (.drw x y n) s = .next (drawSprite x y rows s).advance ∧
      exec (.drw x y n) (s.setFb fb) = .next (drawSprite x y rows (s.setFb fb)).advance) ∨
    (∃ f, exec (.drw x y n) s = .fault f ∧ exec (.drw x y n) (s.setFb fb) = .fault f) := by
  have hload : loadBlock (s.setFb fb) (s.setFb fb).base n.toNat = loadBlock s s.base n.toNat := rfl
  rw [exec, exec, execDrw, execDrw, hload]
  cases loadBlock s s.base n.toNat with
  | ok rows => exact .inl ⟨rows, rfl, rfl⟩
  | error f => exact .inr ⟨f, rfl, rfl⟩

/-- Two draws of one sprite that start from different framebuffers end with the same state but for these and `VF`. -/
theorem drawSprite_setFb_keepsAllBut (x y : Reg) (rows : List Byte) :
    KeepsAllBut [.regs, .fb] (drawSprite x y rows s).advance (drawSprite x y rows (s.setFb fb)).advance := by
  refine ⟨fun p hp => ?_, rfl⟩
  cases p <;> simp_all [Part.Same]

theorem drawSprite_setFb_reg (x y : Reg) (rows : List Byte) {r : Reg} (h : r ≠ vf) :
    (drawSprite x y rows (s.setFb fb)).advance.reg r = (drawSprite x y rows s).advance.reg r := by
  simp [drawSprite_reg _ _ _ _ h]

/-! ## The two halves of R123 -/

variable {s} {t : State} {i : Instr}

/-- Putting back the framebuffer a state has changes nothing, so by `exec_setFb` it is the one of the next state. -/
theorem exec_fb (hcls : i ≠ .cls) (hdrw : ∀ x y n, i ≠ .drw x y n) (h : exec i s = .next t) : t.fb = s.fb := by
  have hself := exec_setFb s s.fb hcls hdrw
  rw [State.setFb_self, h, mapNext_next] at hself
  exact (congrArg State.fb (Host.Outcome.next.inj hself)).trans (t.setFb_fb s.fb)

/-- No event but a reset and a step of `CLS` or `DRW` writes the framebuffer. -/
theorem hostEvent_fb {e : Event} (h : hostEvent e s = .next t) (hreset : ∀ o, e ≠ .reset o)
    (hstep : e = .step → ∀ i, fetchDecode s = .ok i → i ≠ .cls ∧ ∀ x y n, i ≠ .drw x y n) : t.fb = s.fb := by
  cases e with
  | reset o => exact absurd rfl (hreset o)
  | load bytes start =>
    rcases load_cases s bytes start with ⟨_, hload⟩ | ⟨_, hload⟩ <;> cases hload.symm.trans h
    exact s.setBytes_fb start bytes
  | step =>
    obtain ⟨i, hi, hexec⟩ := step_next h
    obtain ⟨hcls, hdrw⟩ := hstep rfl i hi
    exact exec_fb hcls hdrw hexec
  | tick | keyDown k | keyUp k => cases h; rfl

/-- With another framebuffer an instruction that completes still completes, in a state that differs in the framebuffer
and, after `DRW` alone, in `VF`. -/
theorem exec_setFb_next (h : exec i s = .next t) :
    ∃ u, exec i (s.setFb fb) = .next u ∧ KeepsAllBut [.regs, .fb] t u ∧
      KeepsRegsBut (fun r => r = vf ∧ ∃ x y n, i = .drw x y n) t u := by
  by_cases hdrw : ∃ x y n, i = .drw x y n
  · obtain ⟨x, y, n, rfl⟩ := hdrw
    rcases exec_drw_setFb s fb x y n with ⟨rows, hs, hfb⟩ | ⟨f, hs, _⟩ <;> cases hs.symm.trans h
    exact ⟨_, hfb, drawSprite_setFb_keepsAllBut s fb x y rows,
      fun r hr => drawSprite_setFb_reg s fb x y rows (fun hvf => hr ⟨hvf, x, y, n, rfl⟩)⟩
  · by_cases hcls : i = .cls
    · subst hcls
      exact ⟨t, h, KeepsAllBut.refl _ t, fun _ _ => rfl⟩
    · have hexec := exec_setFb s fb hcls (fun x y n hi => hdrw ⟨x, y, n, hi⟩)
      rw [h, mapNext_next] at hexec
      exact ⟨_, hexec, (t.setFb_keepsAllBut_fb fb).mono (by simp), fun r _ => t.setFb_reg fb r⟩

theorem exec_setFb_fault {f : Fault} (h : exec i s = .fault f) : exec i (s.setFb fb) = .fault f := by
  by_cases hdrw : ∃ x y n, i = .drw x y n
  · obtain ⟨x, y, n, rfl⟩ := hdrw
    rcases exec_drw_setFb s fb x y n with ⟨rows, hs, _⟩ | ⟨f', hs, hfb⟩ <;> cases hs.symm.trans h
    exact hfb
  · have hcls : i ≠ .cls := by rintro rfl; cases h
    rw [exec_setFb s fb hcls (fun x y n hi => hdrw ⟨x, y, n, hi⟩), h, mapNext_fault]

/-- Settles O36: every instruction but `CLS` and `DRW` commutes with `setFb`, `CLS` forgets the old framebuffer, and `DRW`
passes it on only through `VF`. -/
theorem framebufferSeenOnlyThroughCollision : Obligations.FramebufferSeenOnlyThroughCollision :=
  ⟨fun _ _ _ h hreset hstep => State.pixel_eq_of_fb_eq (hostEvent_fb h hreset hstep),
    fun _ _ fb => ⟨fun _ => exec_setFb_next fb, fun _ => exec_setFb_fault fb⟩⟩

end Sys2Proof.Machine
end

section
/-! Noninterference of the timers: only `LD Vx, DT` and `LD DT, Vx` touch `DT`, and no instruction touches `ST`. Every other
instruction commutes with replacing both timers, so it answers the same whatever they hold and keeps what it was given
(44_keypad_timers R133, R135). -/

namespace Sys2Proof.Machine

/-- Replace both timers. -/
def State.setTimers (s : State) (d b : Byte) : State := (s.setDt d).setSt b

variable (s : State) (d b : Byte)

theorem State.setTimers_self : s.setTimers s.dt s.st = s := rfl

theorem State.setTimers_dt_self : s.setTimers s.dt b = s.setSt b := rfl

@[simp] theorem State.setTimers_dt : (s.setTimers d b).dt = d := rfl

@[simp] theorem State.setTimers_stack : (s.setTimers d b).stack = s.stack := rfl

@[simp] theorem State.setTimers_params : (s.setTimers d b).params = s.params := rfl

/-! ## The operations that branch or recurse commute with `setTimers` -/

/-- An operation that can fault, with the state it ends in changed by `g`. -/
theorem mapNext_finish_map {α : Type} (r : Except Fault α) (f : α → State) (g : State → State) :
    mapNext g (finish (r.map f)) = finish (r.map fun a => g (f a)) := by cases r <;> rfl

theorem State.skipIf_setTimers (c : Bool) : (s.setTimers d b).skipIf c = (s.skipIf c).setTimers d b := by
  cases c <;> rfl

theorem State.setBytes_setTimers (base : Nat) (bs : List Byte) :
    (s.setTimers d b).setBytes base bs = (s.setBytes base bs).setTimers d b := by
  induction bs generalizing s base with
  | nil => rfl
  | cons c bs ih => exact ih (s.setByte base c) (base + 1)

theorem storeNext_setTimers (bs : List Byte) :
    storeNext bs (s.setTimers d b) = mapNext (·.setTimers d b) (storeNext bs s) := by
  have hbase : (s.setTimers d b).base = s.base := rfl
  rw [storeNext, storeNext, storeBlock, storeBlock, hbase, State.setBytes_setTimers]
  cases rangeFault s.base bs.length <;> rfl

theorem execSys_setTimers (nnn : BitVec 12) :
    execSys nnn (s.setTimers d b) = mapNext (·.setTimers d b) (execSys nnn s) := by
  rw [execSys, execSys, State.setTimers_params]
  cases s.params.sysBehaviour <;> rfl

theorem execRet_setTimers : execRet (s.setTimers d b) = mapNext (·.setTimers d b) (execRet s) := by
  rw [execRet, execRet, State.setTimers_stack]
  cases s.stack.getLast? <;> rfl

theorem execCall_setTimers (nnn : BitVec 12) :
    execCall nnn (s.setTimers d b) = mapNext (·.setTimers d b) (execCall nnn s) := by
  have hfull : (s.setTimers d b).stackFull = s.stackFull := rfl
  rw [execCall, execCall, hfull]
  cases s.stackFull <;> rfl

theorem execLdVxMem_setTimers (x : Reg) :
    execLdVxMem x (s.setTimers d b) = mapNext (·.setTimers d b) (execLdVxMem x s) := by
  rw [execLdVxMem, execLdVxMem, mapNext_finish_map]
  rfl

theorem execDrw_setTimers (x y : Reg) (n : BitVec 4) :
    execDrw x y n (s.setTimers d b) = mapNext (·.setTimers d b) (execDrw x y n s) := by
  rw [execDrw, execDrw, mapNext_finish_map]
  rfl

theorem execLdVxK_setTimers (x : Reg) :
    execLdVxK x (s.setTimers d b) = mapNext (·.setTimers d b) (execLdVxK x s) := by
  have hheld : (s.setTimers d b).heldKeys = s.heldKeys := rfl
  rw [execLdVxK, execLdVxK, hheld, State.setTimers_params]
  cases s.heldKeys with
  | nil => rfl
  | cons k ks => cases s.params.keySelect <;> rfl

/-! ## The instructions -/

@[simp] theorem exec_ldVxDt (x : Reg) : exec (.ldVxDt x) s = .next (s.setReg x s.dt).advance := rfl

@[simp] theorem exec_ldDtVx (x : Reg) : exec (.ldDtVx x) s = .next (s.setDt (s.reg x)).advance := rfl

/-- Every instruction but `LD Vx, DT` and `LD DT, Vx` commutes with replacing the timers. -/
theorem exec_setTimers {i : Instr} (hread : ∀ x, i ≠ .ldVxDt x) (hwrite : ∀ x, i ≠ .ldDtVx x) :
    exec i (s.setTimers d b) = mapNext (·.setTimers d b) (exec i s) := by
  cases i
  case ldVxDt x => exact absurd rfl (hread x)
  case ldDtVx x => exact absurd rfl (hwrite x)
  case sys nnn => exact execSys_setTimers s d b nnn
  case ret => exact execRet_setTimers s d b
  case call nnn => exact execCall_setTimers s d b nnn
  case seImm | sneImm | seReg | sneReg | skp | sknp => exact congrArg _ (s.skipIf_setTimers d b _)
  case ldB | ldMemVx => exact storeNext_setTimers s d b _
  case ldVxMem x => exact execLdVxMem_setTimers s d b x
  case drw x y n => exact execDrw_setTimers s d b x y n
  case ldVxK x => exact execLdVxK_setTimers s d b x
  -- what is left is a chain of field updates, none of them of a timer
  all_goals rfl

variable {s} {t : State} {i : Instr}

/-- Putting back the timers a state has changes nothing, so by `exec_setTimers` they are those of the next state. -/
theorem exec_dt (hwrite : ∀ x, i ≠ .ldDtVx x) (h : exec i s = .next t) : t.dt = s.dt := by
  by_cases hread : ∃ x, i = .ldVxDt x
  · obtain ⟨x, rfl⟩ := hread
    cases h
    rfl
  · have hself := exec_setTimers s s.dt s.st (fun x hi => hread ⟨x, hi⟩) hwrite
    rw [State.setTimers_self, h, mapNext_next] at hself
    exact (congrArg State.dt (Host.Outcome.next.inj hself)).trans (t.setTimers_dt s.dt s.st)

/-- No instruction reads `ST`: with another value it completes in the same state but for `ST`. -/
theorem exec_setSt_next (h : exec i s = .next t) : exec i (s.setSt b) = .next (t.setSt b) := by
  by_cases hdt : (∃ x, i = .ldVxDt x) ∨ ∃ x, i = .ldDtVx x
  · obtain ⟨x, rfl⟩ | ⟨x, rfl⟩ := hdt <;> cases h <;> rfl
  · have hread : ∀ x, i ≠ .ldVxDt x := fun x hi => hdt (.inl ⟨x, hi⟩)
    have hwrite : ∀ x, i ≠ .ldDtVx x := fun x hi => hdt (.inr ⟨x, hi⟩)
    have hexec := exec_setTimers s s.dt b hread hwrite
    rwa [h, mapNext_next, State.setTimers_dt_self, ← exec_dt hwrite h, State.setTimers_dt_self] at hexec

/-! ## The host events -/

/-- No event but a reset, a tick and a step of `LD DT, Vx` writes the delay timer. -/
theorem hostEvent_dt {e : Event} (h : hostEvent e s = .next t) (hreset : ∀ o, e ≠ .reset o) (htick : e ≠ .tick)
    (hstep : e = .step → ∀ x, fetchDecode s ≠ .ok (.ldDtVx x)) : t.dt = s.dt := by
  cases e with
  | reset o => exact absurd rfl (hreset o)
  | load bytes start =>
    rcases load_cases s bytes start with ⟨_, hload⟩ | ⟨_, hload⟩ <;> cases hload.symm.trans h
    exact s.setBytes_dt start bytes
  | step =>
    obtain ⟨i, hi, hexec⟩ := step_next h
    exact exec_dt (fun x hx => hstep rfl x (hx ▸ hi)) hexec
  | tick => exact absurd rfl htick
  | keyDown k | keyUp k => cases h; rfl

theorem hostEvent_tick_dt (h : hostEvent .tick s = .next t) : t.dt.toNat = s.dt.toNat - 1 := by
  cases h
  exact countDown_toNat s.dt

/-- Settles O38: each of the two `DT` instructions is one write, then `next`; of the other events only `Tick` writes `DT`,
counting it down; and every instruction commutes with `setSt`. -/
theorem delayTimerReadAndWrite : Obligations.DelayTimerReadAndWrite := by
  refine ⟨fun x s => ⟨?_, ?_⟩, fun e s t h hreset hstep => ⟨?_, ?_⟩, fun _ _ _ b h => exec_setSt_next b h⟩
  · exact ⟨_, exec_ldVxDt s x, s.setReg_advance_reg_self x _, rfl, rfl, s.setReg_advance_reg_ne _⟩
  · exact ⟨_, exec_ldDtVx s x, rfl, rfl, rfl⟩
  · rintro rfl
    exact hostEvent_tick_dt h
  · exact fun htick => hostEvent_dt h hreset htick hstep

end Sys2Proof.Machine
end

section
/-! The frame of a write to one timer, and `Tick`, which writes both (60_exceptions R148). -/

namespace Sys2Proof.Machine

open Sys2Proof.Claims

variable (s : State) (b : Byte)

theorem State.setDt_keepsAllBut_dt : KeepsAllBut [.dt] s (s.setDt b) := by
  refine ⟨fun p hp => ?_, s.setDt_params b⟩
  cases p <;> simp_all [Part.Same]

theorem State.setSt_keepsAllBut_st : KeepsAllBut [.st] s (s.setSt b) := by
  refine ⟨fun p hp => ?_, s.setSt_params b⟩
  cases p <;> simp_all [Part.Same]

theorem tick_keepsAllBut_timers : KeepsAllBut [.dt, .st] s (tick s) :=
  (s.setDt_keepsAllBut_dt _).trans (State.setSt_keepsAllBut_st _ _)

/-- Settles O41: `Tick` counts each timer down by itself, and its two writes reach no other part. -/
theorem tickCountsDown : Obligations.TickCountsDown :=
  fun s => ⟨tick s, rfl, countDown_toNat s.dt, countDown_toNat s.st, tick_keepsAllBut_timers s⟩

end Sys2Proof.Machine
end

section
/-! What a completed `Reset` answers (70_reset R160), and the font region after it (R162). -/

namespace Sys2Proof.Machine

variable {s t : State} {o : ResetOptions}

/-- A reset completes only with legal options, and its last write is the font's. -/
theorem hostEvent_reset_next (h : hostEvent (.reset o) s = .next t) :
    resetOptionsLegal o s = true ∧ t = writeFont (overridden o s) := by
  rcases resetWith_cases s o with ⟨hlegal, hreset⟩ | ⟨_, hreset⟩ <;> cases hreset.symm.trans h
  exact ⟨hlegal, rfl⟩

/-- Settles O44: the font write comes after every override, and no override reaches the font, a parameter of the machine. -/
theorem resetWritesFontLast : Obligations.ResetWritesFontLast := by
  intro o s t h j hj
  obtain ⟨_, rfl⟩ := hostEvent_reset_next h
  calc (writeFont (overridden o s)).byte j
      = (overridden o s).params.font[j] := by rw [writeFont_byte, dif_pos hj]
    _ = s.params.font[j] := by simp only [overridden_params]

end Sys2Proof.Machine
end

section
/-! Decoding the packed words, format by format, and back: what a word of each format decodes to, and that the
instruction a word decodes to is encoded by the word's examined bits (30_encoding R53, R55 to R57, R60). -/

namespace Sys2Proof

open Sys2Proof.Claims

variable {op : Word} {i : Instr}

/-! ## The groups that dispatch once more -/

theorem decode_of_group0 (h : opGroup op = 0x0#4) : decode op = .ok (decodeGroup0 op) := by simp [decode, h]

theorem decode_of_group8 (h : opGroup op = 0x8#4) : decode op = decodeGroup8 op := by simp [decode, h]

theorem decode_of_groupE (h : opGroup op = 0xE#4) : decode op = decodeGroupE op := by simp [decode, h]

theorem decode_of_groupF (h : opGroup op = 0xF#4) : decode op = decodeGroupF op := by simp [decode, h]

theorem packNNN_right_injective {g : BitVec 4} {a b : BitVec 12} (h : packNNN g a = packNNN g b) : a = b := by
  rw [← opNNN_packNNN g a, h, opNNN_packNNN]

/-- A word of group 0 is `SYS` unless it is one of the two whole words of `CLS` and `RET` (30_encoding R54). -/
theorem decode_packNNN_sys {nnn : BitVec 12} (hcls : nnn ≠ 0x0E0#12) (hret : nnn ≠ 0x0EE#12) :
    decode (packNNN 0x0#4 nnn) = .ok (.sys nnn) := by
  have hcls' : packNNN 0x0#4 nnn ≠ 0x00E0#16 := fun h => hcls (packNNN_right_injective (b := 0x0E0#12) h)
  have hret' : packNNN 0x0#4 nnn ≠ 0x00EE#16 := fun h => hret (packNNN_right_injective (b := 0x0EE#12) h)
  rw [decode_of_group0 (opGroup_packNNN _ _), decodeGroup0, if_neg hcls', if_neg hret', opNNN_packNNN]

/-- The selector nibble of a word of group 8 (30_encoding R54). -/
@[simp] theorem decode_packXYN_group8 (x y : Reg) (n : BitVec 4) :
    decode (packXYN 0x8#4 x y n) = decodeGroup8 (packXYN 0x8#4 x y n) :=
  decode_of_group8 (opGroup_packXYN _ _ _ _)

@[simp] theorem decode_packXKK_groupE (x : Reg) (kk : Byte) :
    decode (packXKK 0xE#4 x kk) = decodeGroupE (packXKK 0xE#4 x kk) :=
  decode_of_groupE (opGroup_packXKK _ _ _)

@[simp] theorem decode_packXKK_groupF (x : Reg) (kk : Byte) :
    decode (packXKK 0xF#4 x kk) = decodeGroupF (packXKK 0xF#4 x kk) :=
  decode_of_groupF (opGroup_packXKK _ _ _)

/-! ## Encode, then decode -/

theorem decode_encode (h : i.wellFormed = true) : decode (encode i) = .ok i := by
  cases i
  case cls | ret => rfl
  case sys nnn =>
    simp only [Instr.wellFormed, Bool.and_eq_true, bne_iff_ne] at h
    exact decode_packNNN_sys h.1 h.2
  case jp | call | ldI | jpV0 => simp [encode, decode]
  case seImm | sneImm | ldImm | addImm | rnd => simp [encode, decode]
  case seReg | sneReg | drw => simp [encode, decode]
  case ldReg | orReg | andReg | xorReg | addReg | sub | shr | subn | shl => simp [encode, decodeGroup8]
  case skp | sknp => simp [encode, decodeGroupE]
  case ldVxDt | ldVxK | ldDtVx | ldStVx | addI | ldF | ldB | ldMemVx | ldVxMem => simp [encode, decodeGroupF]

theorem decodeBytes_encodeBytes_append (h : i.wellFormed = true) (rest : List Byte) :
    decodeBytes (encodeBytes i ++ rest) = .ok (i, rest) := by
  simp [encodeBytes, decodeBytes, decode_encode h]

/-- Settles O5: each format's fields are read back as packed, and two bytes are read back as their word. -/
theorem decodeOfEncodeIsIdentity : Obligations.DecodeOfEncodeIsIdentity :=
  fun _ rest h => ⟨decode_encode h, decodeBytes_encodeBytes_append h rest⟩

/-- Settles O2: the fields of a packed word are the operands, and its group and selector name the row of the map. -/
theorem decodeFollowsOpcodeMap : Obligations.DecodeFollowsOpcodeMap := by
  intro x y n kk nnn
  refine ⟨rfl, rfl, decode_packNNN_sys, ?_⟩
  -- the fields are read back by the laws of the packed words, so only the choice by group and selector is left
  simp [decode, decodeGroup8, decodeGroupE, decodeGroupF]

/-- Settles O1: each word is evaluated by the decoder. -/
theorem decodeReadsSpecWords : Obligations.DecodeReadsSpecWords :=
  ⟨rfl, rfl, rfl, rfl, rfl, rfl, rfl, rfl, rfl, rfl, rfl, rfl, rfl, rfl, rfl⟩

/-! ## The words no pattern matches -/

/-- The selectors of group 8 that name no instruction (30_encoding R60). -/
theorem decodeGroup8_eq_error_iff :
    decodeGroup8 op = .error (.unrecognizedOpcode op) ↔
      opN op ∈ [0x8#4, 0x9#4, 0xA#4, 0xB#4, 0xC#4, 0xD#4, 0xF#4] := by
  have hselectors : ∀ n : BitVec 4, n ∉ [0x8#4, 0x9#4, 0xA#4, 0xB#4, 0xC#4, 0xD#4, 0xF#4] ↔
      n ∈ [0x0#4, 0x1#4, 0x2#4, 0x3#4, 0x4#4, 0x5#4, 0x6#4, 0x7#4, 0xE#4] := by decide
  constructor
  · contrapose
    rw [hselectors]
    intro h hd
    simp only [List.mem_cons, List.not_mem_nil, or_false] at h
    rcases h with h | h | h | h | h | h | h | h | h <;> simp [decodeGroup8, h] at hd
  · intro h
    simp only [List.mem_cons, List.not_mem_nil, or_false] at h
    rcases h with h | h | h | h | h | h | h <;> simp [decodeGroup8, h]

theorem decodeGroupE_eq_error_iff :
    decodeGroupE op = .error (.unrecognizedOpcode op) ↔ opKK op ≠ 0x9E#8 ∧ opKK op ≠ 0xA1#8 := by
  unfold decodeGroupE
  split_ifs <;> simp_all

theorem decodeGroupF_eq_error_iff :
    decodeGroupF op = .error (.unrecognizedOpcode op) ↔
      opKK op ∉ [0x07#8, 0x0A#8, 0x15#8, 0x18#8, 0x1E#8, 0x29#8, 0x33#8, 0x55#8, 0x65#8] := by
  unfold decodeGroupF
  split_ifs <;> simp_all

theorem decode_eq_error_iff :
    decode op = .error (.unrecognizedOpcode op) ↔
      (opGroup op = 0x8#4 ∧ opN op ∈ [0x8#4, 0x9#4, 0xA#4, 0xB#4, 0xC#4, 0xD#4, 0xF#4]) ∨
      (opGroup op = 0xE#4 ∧ opKK op ≠ 0x9E#8 ∧ opKK op ≠ 0xA1#8) ∨
      (opGroup op = 0xF#4 ∧
        opKK op ∉ [0x07#8, 0x0A#8, 0x15#8, 0x18#8, 0x1E#8, 0x29#8, 0x33#8, 0x55#8, 0x65#8]) := by
  by_cases h8 : opGroup op = 0x8#4
  · rw [decode_of_group8 h8, decodeGroup8_eq_error_iff]
    simp [h8]
  by_cases hE : opGroup op = 0xE#4
  · rw [decode_of_groupE hE, decodeGroupE_eq_error_iff]
    simp [hE]
  by_cases hF : opGroup op = 0xF#4
  · rw [decode_of_groupF hF, decodeGroupF_eq_error_iff]
    simp [hF]
  simp only [h8, hE, hF, false_and, or_self, iff_false]
  unfold decode
  split
  case h_9 h => exact absurd (BitVec.eq_of_toNat_eq h) h8
  case h_15 h => exact absurd (BitVec.eq_of_toNat_eq h) hE
  case h_16 h => exact absurd (BitVec.eq_of_toNat_eq h) hF
  case h_17 => have hlt := (opGroup op).isLt; simp only [imp_false] at *; omega
  all_goals nofun

/-- Settles O3: only groups 8, E and F reject a word, each by its selector. -/
theorem unrecognizedWordsExactly : Obligations.UnrecognizedWordsExactly :=
  fun _ => ⟨decode_eq_error_iff, fun _ => decode_eq_error⟩

/-! ## Decode, then encode -/

variable {g n : BitVec 4} {kk : Byte}

/-- Masking the low nibble clears it (groups 5 and 9, 30_encoding R57). -/
theorem packXYN_and_lowNibbleMask (g : BitVec 4) (x y : Reg) (n : BitVec 4) :
    packXYN g x y n &&& 0xFFF0#16 = packXYN g x y 0x0#4 := by
  apply BitVec.eq_of_getLsbD_eq
  intro k hk
  simp only [packXYN, BitVec.getLsbD_and, BitVec.getLsbD_append]
  interval_cases k <;> simp

/-- Masking the `y` nibble clears it (`SHR` and `SHL`, 30_encoding R57). -/
theorem packXYN_and_yNibbleMask (g : BitVec 4) (x y : Reg) (n : BitVec 4) :
    packXYN g x y n &&& 0xFF0F#16 = packXYN g x 0 n := by
  apply BitVec.eq_of_getLsbD_eq
  intro k hk
  simp only [packXYN, BitVec.getLsbD_and, BitVec.getLsbD_append]
  interval_cases k <;> simp

/-! The word packed again from its own fields, for each format and each mask of examined bits. -/

theorem packNNN_opFields (hg : opGroup op = g) : packNNN g (opNNN op) = op &&& 0xFFFF#16 := by
  rw [← hg, packNNN_fields]
  exact BitVec.and_allOnes.symm

theorem packXKK_opFields (hg : opGroup op = g) (hk : opKK op = kk) :
    packXKK g (opX op) kk = op &&& 0xFFFF#16 := by
  rw [← hg, ← hk, packXKK_fields]
  exact BitVec.and_allOnes.symm

theorem packXYN_opFields (hg : opGroup op = g) (hn : opN op = n) :
    packXYN g (opX op) (opY op) n = op &&& 0xFFFF#16 := by
  rw [← hg, ← hn, packXYN_fields]
  exact BitVec.and_allOnes.symm

theorem packXYN_opFields_lowNibbleFree (hg : opGroup op = g) :
    packXYN g (opX op) (opY op) 0x0#4 = op &&& 0xFFF0#16 := by
  rw [← hg, ← packXYN_and_lowNibbleMask _ _ _ (opN op), packXYN_fields]

theorem packXYN_opFields_yNibbleFree (hg : opGroup op = g) (hn : opN op = n) :
    packXYN g (opX op) 0 n = op &&& 0xFF0F#16 := by
  rw [← hg, ← hn, ← packXYN_and_yNibbleMask _ _ (opY op), packXYN_fields]

/-- The instruction stands for the word: it is well-formed, and its encoding has the word's examined bits. -/
def StandsFor (i : Instr) (op : Word) : Prop := i.wellFormed = true ∧ encode i = op &&& examinedBits i

theorem decodeGroup0_standsFor (hg : opGroup op = 0x0#4) : StandsFor (decodeGroup0 op) op := by
  have hop : packNNN 0x0#4 (opNNN op) = op := hg ▸ packNNN_fields op
  unfold decodeGroup0
  split_ifs with hcls hret
  · subst hcls; exact ⟨rfl, rfl⟩
  · subst hret; exact ⟨rfl, rfl⟩
  · have hne : opNNN op ≠ 0x0E0#12 ∧ opNNN op ≠ 0x0EE#12 :=
      ⟨fun h => hcls (by rw [← hop, h]; rfl), fun h => hret (by rw [← hop, h]; rfl)⟩
    exact ⟨by simpa [Instr.wellFormed] using hne, packNNN_opFields hg⟩

theorem decodeGroup8_standsFor (hg : opGroup op = 0x8#4) (h : decodeGroup8 op = .ok i) : StandsFor i op := by
  unfold decodeGroup8 at h
  split at h <;> cases h
  case h_7 hn | h_9 hn => exact ⟨rfl, packXYN_opFields_yNibbleFree hg (BitVec.eq_of_toNat_eq hn)⟩
  all_goals exact ⟨rfl, packXYN_opFields hg (BitVec.eq_of_toNat_eq ‹_›)⟩

theorem decodeGroupE_standsFor (hg : opGroup op = 0xE#4) (h : decodeGroupE op = .ok i) : StandsFor i op := by
  unfold decodeGroupE at h
  split_ifs at h <;> cases h <;> exact ⟨rfl, packXKK_opFields hg ‹_›⟩

theorem decodeGroupF_standsFor (hg : opGroup op = 0xF#4) (h : decodeGroupF op = .ok i) : StandsFor i op := by
  unfold decodeGroupF at h
  split_ifs at h <;> cases h <;> exact ⟨rfl, packXKK_opFields hg ‹_›⟩

theorem decode_standsFor (h : decode op = .ok i) : StandsFor i op := by
  unfold decode at h
  split at h
  case h_1 hg => cases h; exact decodeGroup0_standsFor (BitVec.eq_of_toNat_eq hg)
  case h_9 hg => exact decodeGroup8_standsFor (BitVec.eq_of_toNat_eq hg) h
  case h_15 hg => exact decodeGroupE_standsFor (BitVec.eq_of_toNat_eq hg) h
  case h_16 hg => exact decodeGroupF_standsFor (BitVec.eq_of_toNat_eq hg) h
  case h_17 => cases h
  all_goals cases h
  case h_2 hg | h_3 hg | h_11 hg | h_12 hg => exact ⟨rfl, packNNN_opFields (BitVec.eq_of_toNat_eq hg)⟩
  case h_6 hg | h_10 hg => exact ⟨rfl, packXYN_opFields_lowNibbleFree (BitVec.eq_of_toNat_eq hg)⟩
  case h_14 hg => exact ⟨rfl, packXYN_opFields (BitVec.eq_of_toNat_eq hg) rfl⟩
  case h_4 hg | h_5 hg | h_7 hg | h_8 hg | h_13 hg => exact ⟨rfl, packXKK_opFields (BitVec.eq_of_toNat_eq hg) rfl⟩

/-- Settles O6: each pattern of the decoder names an instruction that stands for the word. -/
theorem encodeOfDecodeKeepsExaminedBits : Obligations.EncodeOfDecodeKeepsExaminedBits :=
  fun _ _ => decode_standsFor

/-- Settles O4: no row of the map that has a free nibble reads it, and two words of one instruction have the examined
bits of its encoding. -/
theorem notExaminedNibblesDoNotMatter : Obligations.NotExaminedNibblesDoNotMatter := by
  refine ⟨fun x y n n' => ?_, fun x y y' => ?_, fun op op' i h h' => ?_⟩
  · simp [decode]
  · simp [decodeGroup8]
  · exact (decode_standsFor h).2.symm.trans (decode_standsFor h').2

end Sys2Proof
end

section
/-! The frame of each update of the state (decision D23). -/

namespace Sys2Proof.Machine

open Sys2Proof.Claims

variable (s : State)

theorem State.setReg_keepsAllBut_regs (x : Reg) (b : Byte) : KeepsAllBut [.regs] s (s.setReg x b) :=
  ⟨fun p hp => by cases p <;> simp_all [Part.Same], rfl⟩

theorem State.loadRegs_keepsAllBut_regs (bs : List Byte) : KeepsAllBut [.regs] s (s.loadRegs bs) :=
  ⟨fun p hp => by cases p <;> simp_all [Part.Same], rfl⟩

theorem State.setPc_keepsAllBut_pc (w : Word) : KeepsAllBut [.pc] s (s.setPc w) :=
  ⟨fun p hp => by cases p <;> simp_all [Part.Same], rfl⟩

theorem State.skipIf_keepsAllBut_pc (c : Bool) : KeepsAllBut [.pc] s (s.skipIf c) := by
  cases c
  · exact s.setPc_keepsAllBut_pc _
  · exact s.setPc_keepsAllBut_pc _

theorem State.setI_keepsAllBut_i (w : Word) : KeepsAllBut [.i] s (s.setI w) :=
  ⟨fun p hp => by cases p <;> simp_all [Part.Same], rfl⟩

theorem State.setStack_keepsAllBut_stack (es : List Word) : KeepsAllBut [.stack] s (s.setStack es) :=
  ⟨fun p hp => by cases p <;> simp_all [Part.Same], rfl⟩

theorem State.setKeys_keepsAllBut_keys (ks : BitVec 16) : KeepsAllBut [.keys] s (s.setKeys ks) :=
  ⟨fun p hp => by cases p <;> simp_all [Part.Same], rfl⟩

theorem State.emitBeep_keepsAllBut_beeps : KeepsAllBut [.beeps] s s.emitBeep :=
  ⟨fun p hp => by cases p <;> simp_all [Part.Same], rfl⟩

theorem State.countDraw_keepsAllBut_draws : KeepsAllBut [.draws] s s.countDraw :=
  ⟨fun p hp => by cases p <;> simp_all [Part.Same], rfl⟩

theorem drawSprite_keepsAllBut (x y : Reg) (rows : List Byte) :
    KeepsAllBut [.regs, .fb] s (drawSprite x y rows s) :=
  ⟨fun p hp => by cases p <;> simp_all [Part.Same], rfl⟩

/-! ## One register write, then `next`; and one with a flag written first -/

theorem State.setReg_advance_keepsAllBut (x : Reg) (b : Byte) : KeepsAllBut [.regs, .pc] s (s.setReg x b).advance :=
  (s.setReg_keepsAllBut_regs x b).trans (State.advance_keepsAllBut_pc _)

theorem State.setReg_setReg_advance_keepsAllBut (x y : Reg) (b c : Byte) :
    KeepsAllBut [.regs, .pc] s ((s.setReg y c).setReg x b).advance :=
  ((s.setReg_keepsAllBut_regs y c).trans (State.setReg_advance_keepsAllBut _ x b)).mono (by simp)

theorem State.countDraw_setReg_advance_keepsAllBut (x : Reg) (b : Byte) :
    KeepsAllBut [.regs, .pc, .draws] s (s.countDraw.setReg x b).advance :=
  (s.countDraw_keepsAllBut_draws.trans (State.setReg_advance_keepsAllBut _ x b)).mono (by simp)

theorem State.setReg_advance_keepsRegsBut (x : Reg) (b : Byte) :
    KeepsRegsBut (fun r => r = x) s (s.setReg x b).advance :=
  fun _ h => s.setReg_advance_reg_ne b (Ne.symm h)

theorem State.setReg_setReg_advance_keepsRegsBut (x y : Reg) (b c : Byte) :
    KeepsRegsBut (fun r => r = x ∨ r = y) s ((s.setReg y c).setReg x b).advance := by
  intro r h
  obtain ⟨hx, hy⟩ := not_or.1 h
  rw [State.setReg_advance_reg_ne _ b (Ne.symm hx), State.setReg_reg_ne _ y c hy]

end Sys2Proof.Machine
end

section
/-! Every instruction changes at most the parts its rule names (decision D23): one frame for all of them, from which the
frames of the families and the rules about who writes what follow. -/

namespace Sys2Proof.Machine

open Sys2Proof.Claims

/-- The parts of the state the rule of an instruction names as changed (files 40 to 44 of the spec). -/
def changedParts : Instr → List Part
  | .sys _ | .jp _ | .jpV0 _ | .seImm _ _ | .sneImm _ _ | .seReg _ _ | .sneReg _ _ | .skp _ | .sknp _ => [.pc]
  | .ret | .call _ => [.pc, .stack]
  | .ldImm _ _ | .addImm _ _ | .ldReg _ _ | .orReg _ _ | .andReg _ _ | .xorReg _ _ | .ldVxDt _ => [.regs, .pc]
  | .addReg _ _ | .sub _ _ | .shr _ | .subn _ _ | .shl _ | .ldVxMem _ => [.regs, .pc]
  | .rnd _ _ | .ldVxK _ => [.regs, .pc, .draws]
  | .ldI _ | .addI _ | .ldF _ => [.i, .pc]
  | .ldB _ | .ldMemVx _ => [.mem, .pc]
  | .cls => [.fb, .pc]
  | .drw _ _ _ => [.regs, .fb, .pc]
  | .ldDtVx _ => [.dt, .pc]
  | .ldStVx _ => [.beeps, .pc]

variable {s t : State} {i : Instr}

/-- Everything `SYS` can do, one case for each value of its parameter (40_control_transfer R70, D3). -/
theorem execSys_cases (nnn : BitVec 12) (s : State) :
    (s.params.sysBehaviour = .fault ∧ execSys nnn s = .fault (.unrecognizedOpcode (packNNN 0x0#4 nnn))) ∨
    (s.params.sysBehaviour = .nop ∧ execSys nnn s = .next s.advance) ∨
    (s.params.sysBehaviour = .jump ∧ execSys nnn s = .next (s.setPc (zext16 nnn))) := by
  unfold execSys
  cases s.params.sysBehaviour <;> simp [raise]

theorem storeNext_keepsAllBut {bs : List Byte} (h : storeNext bs s = .next t) : KeepsAllBut [.mem, .pc] s t := by
  rcases storeNext_cases bs s with ⟨_, hstore⟩ | ⟨_, _, hstore⟩ <;> cases hstore.symm.trans h
  exact (s.setBytes_keepsAllBut_mem _ bs).trans (State.advance_keepsAllBut_pc _)

theorem exec_keepsAllBut (h : exec i s = .next t) : KeepsAllBut (changedParts i) s t := by
  cases i
  case cls => cases h; exact (s.setFb_keepsAllBut_fb _).trans (State.advance_keepsAllBut_pc _)
  case sys nnn =>
    rcases execSys_cases nnn s with ⟨_, hs⟩ | ⟨_, hs⟩ | ⟨_, hs⟩ <;> cases hs.symm.trans h
    · exact s.setPc_keepsAllBut_pc _
    · exact s.setPc_keepsAllBut_pc _
  case ret =>
    rcases execRet_cases s with ⟨a, _, hr⟩ | ⟨_, hr⟩ <;> cases hr.symm.trans h
    exact (s.setPc_keepsAllBut_pc a).trans (State.setStack_keepsAllBut_stack _ _)
  case call nnn =>
    rcases execCall_cases nnn s with ⟨_, hc⟩ | ⟨_, hc⟩ <;> cases hc.symm.trans h
    exact ((s.setStack_keepsAllBut_stack _).trans (State.setPc_keepsAllBut_pc _ _)).mono (by simp [changedParts])
  case jp | jpV0 => cases h; exact s.setPc_keepsAllBut_pc _
  case seImm | sneImm | seReg | sneReg | skp | sknp => cases h; exact s.skipIf_keepsAllBut_pc _
  case ldImm | addImm | ldReg | orReg | andReg | xorReg | ldVxDt => cases h; exact s.setReg_advance_keepsAllBut _ _
  case addReg | sub | shr | subn | shl => cases h; exact s.setReg_setReg_advance_keepsAllBut _ _ _ _
  case rnd => cases h; exact s.countDraw_setReg_advance_keepsAllBut _ _
  case ldVxK x =>
    rcases execLdVxK_cases x s with ⟨_, hk⟩ | ⟨k, _, _, _, hk⟩ | ⟨k, _, _, hk⟩ <;> cases hk.symm.trans h
    · exact KeepsAllBut.refl _ s
    · exact (s.setReg_advance_keepsAllBut x _).mono (by simp [changedParts])
    · exact s.countDraw_setReg_advance_keepsAllBut x _
  case ldI | addI | ldF => cases h; exact (s.setI_keepsAllBut_i _).trans (State.advance_keepsAllBut_pc _)
  case ldB | ldMemVx => exact storeNext_keepsAllBut h
  case ldVxMem x =>
    rcases execLdVxMem_cases x s with ⟨_, hl⟩ | ⟨_, hl⟩ <;> cases hl.symm.trans h
    exact (s.loadRegs_keepsAllBut_regs _).trans (State.advance_keepsAllBut_pc _)
  case drw x y n =>
    rcases execDrw_cases x y n s with ⟨_, hd⟩ | ⟨_, _, hd⟩ <;> cases hd.symm.trans h
    exact (drawSprite_keepsAllBut s x y _).trans (State.advance_keepsAllBut_pc _)
  case ldDtVx => cases h; exact (s.setDt_keepsAllBut_dt _).trans (State.advance_keepsAllBut_pc _)
  case ldStVx => cases h; exact s.emitBeep_keepsAllBut_beeps.trans (State.advance_keepsAllBut_pc _)

/-- A part the rule does not name is kept. -/
theorem exec_keeps (h : exec i s = .next t) {p : Part} (hp : p ∉ changedParts i) : p.Same s t :=
  (exec_keepsAllBut h).1 p hp

theorem exec_params (h : exec i s = .next t) : t.params = s.params := (exec_keepsAllBut h).2

/-! ## Which instructions name a part -/

theorem st_notMem_changedParts (i : Instr) : Part.st ∉ changedParts i := by cases i <;> simp [changedParts]

theorem keys_notMem_changedParts (i : Instr) : Part.keys ∉ changedParts i := by cases i <;> simp [changedParts]

theorem i_notMem_changedParts (hldI : ∀ nnn, i ≠ .ldI nnn) (haddF : ∀ x, i ≠ .addI x ∧ i ≠ .ldF x) :
    Part.i ∉ changedParts i := by
  cases i <;> simp_all [changedParts]

theorem stack_notMem_changedParts (hret : i ≠ .ret) (hcall : ∀ nnn, i ≠ .call nnn) : Part.stack ∉ changedParts i := by
  cases i <;> simp_all [changedParts]

theorem mem_notMem_changedParts (hstore : ∀ x, i ≠ .ldB x ∧ i ≠ .ldMemVx x) : Part.mem ∉ changedParts i := by
  cases i <;> simp_all [changedParts]

theorem beeps_notMem_changedParts (hbeep : ∀ x, i ≠ .ldStVx x) : Part.beeps ∉ changedParts i := by
  cases i <;> simp_all [changedParts]

theorem draws_notMem_changedParts (hrnd : ∀ x kk, i ≠ .rnd x kk) (hkey : ∀ x, i ≠ .ldVxK x) :
    Part.draws ∉ changedParts i := by
  cases i <;> simp_all [changedParts]

/-- Settles O50: each clause is the frame of the instruction at one part; that `ST` is not read is `exec_setSt_next`. -/
theorem onlyNamedInstructionsWrite : Obligations.OnlyNamedInstructionsWrite :=
  fun i _ _ h =>
    ⟨exec_keeps h (st_notMem_changedParts i), exec_keeps h (keys_notMem_changedParts i),
      fun hwrite => exec_dt hwrite h,
      fun hldI haddF => exec_keeps h (p := .i) (i_notMem_changedParts hldI haddF),
      fun hret hcall => exec_keeps h (p := .stack) (stack_notMem_changedParts hret hcall),
      fun hstore => exec_keeps h (p := .mem) (mem_notMem_changedParts hstore),
      fun b => exec_setSt_next b h⟩

end Sys2Proof.Machine
end

section
/-! An instruction faults exactly on its listed cause and otherwise completes (60_exceptions section 1). -/

namespace Sys2Proof.Machine

open Sys2Proof.Claims

variable {s t : State} {i : Instr}

/-- The out-of-range cause as the shared block operations test it (60_exceptions R143). -/
theorem dataFault_eq_some {n : Nat} (hn : 0 < n) (h : 0x1000 < s.i.toNat + n) :
    dataFault s n = some (.addressOutOfRange (max s.i.toNat 0x1000)) := if_pos ⟨hn, by omega⟩

theorem dataFault_eq_none {n : Nat} (h : n = 0 ∨ s.i.toNat + n ≤ 0x1000) : dataFault s n = none :=
  if_neg (by omega)

theorem dataFault_congr (hi : t.i = s.i) {n : Nat} : dataFault t n = dataFault s n := by
  rw [dataFault, hi, dataFault]

/-- The instruction answers with the fault its cause names, or completes where it names none. -/
def AnswersCause (cause : Option Fault) (o : Host.Outcome State Fault Refusal) : Prop :=
  (∃ f, cause = some f ∧ o = .fault f) ∨ (cause = none ∧ ∃ t, o = .next t)

theorem storeNext_answers (bs : List Byte) (s : State) :
    AnswersCause (dataFault s bs.length) (storeNext bs s) := by
  rcases storeNext_cases bs s with ⟨hr, hs⟩ | ⟨h0, hr, hs⟩
  · exact .inr ⟨dataFault_eq_none hr, _, hs⟩
  · exact .inl ⟨_, dataFault_eq_some h0 hr, hs⟩

/-- The word of `SYS nnn` is `nnn` (40_control_transfer R70). -/
theorem packNNN_group0 (nnn : BitVec 12) : packNNN 0x0#4 nnn = BitVec.ofNat 16 nnn.toNat := by
  have happend : (packNNN 0x0#4 nnn).toNat = 0 <<< 12 ||| nnn.toNat := BitVec.toNat_append 0x0#4 nnn
  have hlt := nnn.isLt
  apply BitVec.eq_of_toNat_eq
  rw [happend, BitVec.toNat_ofNat, Nat.zero_shiftLeft, Nat.zero_or]
  omega

theorem exec_answers (i : Instr) (s : State) : AnswersCause (executeFault s i) (exec i s) := by
  cases i
  case sys nnn =>
    rcases execSys_cases nnn s with ⟨hb, hs⟩ | ⟨hb, hs⟩ | ⟨hb, hs⟩
    · exact .inl ⟨_, if_pos hb, hs.trans (by rw [packNNN_group0])⟩
    · exact .inr ⟨if_neg (by simp [hb]), _, hs⟩
    · exact .inr ⟨if_neg (by simp [hb]), _, hs⟩
  case ret =>
    rcases execRet_cases s with ⟨a, ha, hr⟩ | ⟨hnil, hr⟩
    · exact .inr ⟨if_neg (by rintro hnil; simp [hnil] at ha), _, hr⟩
    · exact .inl ⟨_, if_pos hnil, hr⟩
  case call nnn =>
    rcases execCall_cases nnn s with ⟨hd, hc⟩ | ⟨hd, hc⟩
    · exact .inr ⟨if_neg hd, _, hc⟩
    · exact .inl ⟨_, if_pos hd, hc⟩
  case drw x y n =>
    rcases execDrw_cases x y n s with ⟨hr, hd⟩ | ⟨h0, hr, hd⟩
    · exact .inr ⟨dataFault_eq_none hr, _, hd⟩
    · exact .inl ⟨_, dataFault_eq_some h0 hr, hd⟩
  case ldVxMem x =>
    rcases execLdVxMem_cases x s with ⟨hr, hl⟩ | ⟨hr, hl⟩
    · exact .inr ⟨dataFault_eq_none (.inr (by omega)), _, hl⟩
    · exact .inl ⟨_, dataFault_eq_some (by omega) (by omega), hl⟩
  case ldB x => exact storeNext_answers (decimalDigits (s.reg x)) s
  case ldMemVx x =>
    have h := storeNext_answers (s.regsUpTo x) s
    rwa [State.regsUpTo_length] at h
  case ldVxK x =>
    rcases execLdVxK_cases x s with ⟨_, hk⟩ | ⟨k, _, _, _, hk⟩ | ⟨k, _, _, hk⟩
    · exact .inr ⟨rfl, _, hk⟩
    · exact .inr ⟨rfl, _, hk⟩
    · exact .inr ⟨rfl, _, hk⟩
  -- what is left names no cause, and its meaning has no branch
  all_goals exact .inr ⟨rfl, _, rfl⟩

theorem exec_fault {f : Fault} (h : executeFault s i = some f) : exec i s = .fault f := by
  rcases exec_answers i s with ⟨f', hf, hexec⟩ | ⟨hnone, _⟩
  · cases hf.symm.trans h
    exact hexec
  · cases hnone.symm.trans h

theorem exec_completes (h : executeFault s i = none) : ∃ t, exec i s = .next t := by
  rcases exec_answers i s with ⟨f, hf, _⟩ | ⟨_, hexec⟩
  · cases hf.symm.trans h
  · exact hexec

/-- An instruction that completed had no cause to fault. -/
theorem executeFault_of_next (h : exec i s = .next t) : executeFault s i = none := by
  rcases exec_answers i s with ⟨f, _, hfault⟩ | ⟨hnone, _⟩
  · cases hfault.symm.trans h
  · exact hnone

/-- Only `LD ST, Vx` emits, and it emits one `Beep`. -/
theorem exec_beeps (h : exec i s = .next t) : t.beeps = s.beeps ∨ t.beeps = s.beeps + 1 := by
  by_cases hbeep : ∃ x, i = .ldStVx x
  · obtain ⟨x, rfl⟩ := hbeep
    cases h
    exact .inr rfl
  · exact .inl (exec_keeps h (p := .beeps) (beeps_notMem_changedParts (fun x hi => hbeep ⟨x, hi⟩)))

/-- Only `RND` and `LD Vx, K` draw, each at most once. -/
theorem exec_draws (h : exec i s = .next t) : t.draws = s.draws ∨ t.draws = s.draws + 1 := by
  by_cases hrnd : ∃ x kk, i = .rnd x kk
  · obtain ⟨x, kk, rfl⟩ := hrnd
    cases h
    exact .inr rfl
  by_cases hkey : ∃ x, i = .ldVxK x
  · obtain ⟨x, rfl⟩ := hkey
    rcases execLdVxK_cases x s with ⟨_, hk⟩ | ⟨k, _, _, _, hk⟩ | ⟨k, _, _, hk⟩ <;> cases hk.symm.trans h
    · exact .inl rfl
    · exact .inl rfl
    · exact .inr rfl
  · exact .inl (exec_keeps h (p := .draws)
      (draws_notMem_changedParts (fun x kk hi => hrnd ⟨x, kk, hi⟩) (fun x hi => hkey ⟨x, hi⟩)))

theorem step_total (s : State) : (∃ t, step s = .next t) ∨ ∃ f, step s = .fault f := by
  rcases step_cases s with ⟨i, _, hs⟩ | ⟨f, _, hs⟩
  · rcases exec_answers i s with ⟨f, _, hexec⟩ | ⟨_, t, hexec⟩
    · exact .inr ⟨f, hs.trans hexec⟩
    · exact .inl ⟨t, hs.trans hexec⟩
  · exact .inr ⟨f, hs⟩

/-- Settles O53: each instruction answers its cause, and only three of them count a `Beep` or a draw. -/
theorem faultsExactlyOnListedCauses : Obligations.FaultsExactlyOnListedCauses := by
  refine ⟨fun i s => ⟨fun f => exec_fault, fun h => ?_⟩, step_total⟩
  obtain ⟨t, hexec⟩ := exec_completes h
  exact ⟨t, hexec, exec_beeps hexec, exec_draws hexec⟩

end Sys2Proof.Machine
end

section
/-! The frames of the families, read off the frame of every instruction (decision D23). -/

namespace Sys2Proof.Machine

open Sys2Proof.Claims

variable {s t : State} {i : Instr}

/-- An instruction with no cause to fault completes and changes at most the parts its rule names. -/
theorem exec_completes_keepsAllBut (h : executeFault s i = none) :
    ∃ t, exec i s = .next t ∧ KeepsAllBut (changedParts i) s t := by
  obtain ⟨t, hexec⟩ := exec_completes h
  exact ⟨t, hexec, exec_keepsAllBut hexec⟩

/-- The instructions whose whole effect is one register write and `next`. -/
theorem exec_registerWrite {x : Reg} (s : State)
    (hi : (∃ kk, i = .ldImm x kk ∨ i = .addImm x kk) ∨
      (∃ y, i = .ldReg x y ∨ i = .orReg x y ∨ i = .andReg x y ∨ i = .xorReg x y) ∨ i = .ldVxDt x) :
    ∃ b, exec i s = .next (s.setReg x b).advance := by
  rcases hi with ⟨kk, rfl | rfl⟩ | ⟨y, rfl | rfl | rfl | rfl⟩ | rfl <;> exact ⟨_, rfl⟩

/-- The instructions that write `VF` as a flag, then one register, then `next`. -/
theorem exec_flagWrite {x : Reg} (s : State)
    (hi : (∃ y, i = .addReg x y ∨ i = .sub x y ∨ i = .subn x y) ∨ i = .shr x ∨ i = .shl x) :
    ∃ flag b, exec i s = .next ((s.setReg vf flag).setReg x b).advance := by
  rcases hi with ⟨y, rfl | rfl | rfl⟩ | rfl | rfl <;> exact ⟨_, _, rfl⟩

/-- Settles O55: the forms of a register instruction are one write, a flag and one write, and `RND`'s counted write. -/
theorem registerInstructionFrames : Obligations.RegisterInstructionFrames := by
  refine ⟨fun x s i hi => ?_, fun x s i hi => ?_, fun x kk s => ?_⟩
  · obtain ⟨b, hexec⟩ := exec_registerWrite s hi
    exact ⟨_, hexec, s.setReg_advance_keepsRegsBut x b, s.setReg_advance_keepsAllBut x b⟩
  · obtain ⟨flag, b, hexec⟩ := exec_flagWrite s hi
    exact ⟨_, hexec, s.setReg_setReg_advance_keepsRegsBut x vf b flag, s.setReg_setReg_advance_keepsAllBut x vf b flag⟩
  · exact ⟨_, rfl, s.countDraw.setReg_advance_keepsRegsBut x _, s.countDraw_setReg_advance_keepsAllBut x _⟩

/-- Settles O56: jumps and skips have no cause to fault, and name `pc` alone. -/
theorem controlTransferFrames : Obligations.ControlTransferFrames := by
  constructor
  · rintro s i (⟨nnn, rfl | rfl⟩ | ⟨x, kk, rfl | rfl⟩ | ⟨x, y, rfl | rfl⟩ | ⟨x, rfl | rfl⟩) <;>
      exact exec_completes_keepsAllBut rfl
  · rintro s t i (rfl | ⟨nnn, rfl⟩) h <;> exact exec_keepsAllBut h

/-- Settles O57: the index instructions have no cause to fault, and name `I` and `pc`. -/
theorem indexInstructionFrames : Obligations.IndexInstructionFrames := by
  rintro s i (⟨nnn, rfl⟩ | ⟨x, rfl | rfl⟩) <;> exact exec_completes_keepsAllBut rfl

/-- A store from `I` leaves every byte outside its block alone. -/
theorem storeNext_byte_outside {bs : List Byte} (h : storeNext bs s = .next t) {a : Nat}
    (ha : a < s.i.toNat ∨ s.i.toNat + bs.length ≤ a) : t.byte a = s.byte a := by
  rcases storeNext_cases bs s with ⟨_, hstore⟩ | ⟨_, _, hstore⟩ <;> cases hstore.symm.trans h
  exact s.setBytes_byte_outside ha

/-- A load from `I` leaves the registers above `Vx` alone. -/
theorem exec_ldVxMem_keepsRegsBut {x : Reg} (h : exec (.ldVxMem x) s = .next t) :
    KeepsRegsBut (fun r => r ≤ x) s t := by
  rcases execLdVxMem_cases x s with ⟨_, hload⟩ | ⟨_, hload⟩ <;> cases hload.symm.trans h
  intro r hr
  have hlen : (s.bytes s.i.toNat (x.val + 1)).length ≤ r.val := by
    rw [State.bytes_length]
    exact Nat.lt_of_not_le hr
  rw [State.advance_reg, State.loadRegs_reg, List.getD_eq_default _ _ hlen]

/-- Settles O58: a block store is a store from `I`, and a block load writes the registers its list reaches. -/
theorem memoryInstructionFrames : Obligations.MemoryInstructionFrames := by
  refine fun x s t => ⟨fun h => ?_, fun h => ?_, fun h => ?_⟩
  · exact ⟨exec_keepsAllBut h, fun a => storeNext_byte_outside (bs := decimalDigits (s.reg x)) h⟩
  · refine ⟨exec_keepsAllBut h, fun a ha => storeNext_byte_outside h ?_⟩
    rwa [State.regsUpTo_length]
  · exact ⟨exec_keepsAllBut h, exec_ldVxMem_keepsRegsBut h⟩

theorem exec_drw_keepsRegsBut {x y : Reg} {n : BitVec 4} (h : exec (.drw x y n) s = .next t) :
    KeepsRegsBut (fun r => r = vf) s t := by
  rcases execDrw_cases x y n s with ⟨_, hdraw⟩ | ⟨_, _, hdraw⟩ <;> cases hdraw.symm.trans h
  exact fun r hr => drawSprite_reg s x y _ hr

/-- `LD Vx, K` changes at most `Vx`, and draws only under `KEY_SELECT = any`. -/
theorem exec_ldVxK_frame {x : Reg} (h : exec (.ldVxK x) s = .next t) :
    KeepsRegsBut (fun r => r = x) s t ∧ (s.params.keySelect = .lowest → t.draws = s.draws) := by
  rcases execLdVxK_cases x s with ⟨_, hk⟩ | ⟨k, _, _, _, hk⟩ | ⟨k, _, hany, hk⟩ <;> cases hk.symm.trans h
  · exact ⟨fun _ _ => rfl, fun _ => rfl⟩
  · exact ⟨s.setReg_advance_keepsRegsBut x _, fun _ => rfl⟩
  · exact ⟨s.countDraw.setReg_advance_keepsRegsBut x _, fun hlow => by simp [hany] at hlow⟩

/-- Settles O59: the parts are those each rule names; the registers of `DRW` and `LD Vx, K` are their own frames. -/
theorem deviceInstructionFrames : Obligations.DeviceInstructionFrames := by
  refine ⟨fun x y n s t h => ⟨exec_drw_keepsRegsBut h, exec_keepsAllBut h⟩,
    fun x s => exec_completes_keepsAllBut rfl, fun x s => exec_completes_keepsAllBut rfl, fun x s => ?_⟩
  obtain ⟨t, hexec, hparts⟩ := exec_completes_keepsAllBut (s := s) (i := .ldVxK x) rfl
  obtain ⟨hregs, hdraws⟩ := exec_ldVxK_frame hexec
  exact ⟨t, hexec, hregs, hparts, hdraws⟩

end Sys2Proof.Machine
end

section
/-! Where every instruction leaves `pc` (10_state R12, R13), and a run that has stopped (70_reset R175). -/

namespace Sys2Proof.Machine

open Sys2Proof.Claims

variable {s t : State} {i : Instr}

theorem zext16_eq_ofNat {w : Nat} (v : BitVec w) (h : w ≤ 16) : zext16 v = BitVec.ofNat 16 v.toNat := by
  rw [← zext16_toNat v h, BitVec.ofNat_toNat, BitVec.setWidth_eq]

/-- `V[0] + nnn` as the table of R13 writes it. -/
theorem State.offsetTarget_eq_ofNat (s : State) (nnn : BitVec 12) :
    s.offsetTarget nnn = BitVec.ofNat 16 ((s.reg 0).toNat + nnn.toNat) := by
  rw [← s.offsetTarget_toNat, BitVec.ofNat_toNat, BitVec.setWidth_eq]

/-- A skip, with its condition as a proposition. -/
theorem State.skipIf_pc_ite {c : Bool} {P : Prop} [Decidable P] (hc : c = true ↔ P) :
    (s.skipIf c).pc = if P then s.pc + 4#16 else s.pc + 2#16 := by
  split_ifs with hP
  · exact State.skipIf_pc_of_true (hc.2 hP)
  · exact State.skipIf_pc_of_false (Bool.eq_false_iff.2 (fun h => hP (hc.1 h)))

/-- A skip on the negation of its condition. -/
theorem State.skipIf_pc_ite_not {c : Bool} {P : Prop} [Decidable P] (hc : c = true ↔ ¬ P) :
    (s.skipIf c).pc = if P then s.pc + 2#16 else s.pc + 4#16 := by
  rw [State.skipIf_pc_ite hc, ite_not]

theorem State.pressed_iff {b : Byte} : s.pressed b = true ↔ Held s b.toNat := by simp [State.pressed, Held]

theorem State.pressed_eq_false_iff {b : Byte} : s.pressed b = false ↔ ¬ Held s b.toNat := by
  rw [← Bool.not_eq_true, State.pressed_iff]

theorem State.keys_eq_zero_iff : s.keys = 0#16 ↔ ∀ k : Key, s.keys.getLsbD k.val = false :=
  ⟨fun h k => by simp [h], fun h => BitVec.eq_of_getLsbD_eq (fun k hk => by simpa using h ⟨k, hk⟩)⟩

theorem exec_ldVxK_pc {x : Reg} (h : exec (.ldVxK x) s = .next t) :
    t.pc = if s.keys = 0#16 then s.pc else s.pc + 2#16 := by
  have hheld : ∀ {k : Key}, s.keys.getLsbD k.val = true → s.keys ≠ 0#16 := fun {k} hk h0 => by simp [h0] at hk
  rcases execLdVxK_cases x s with ⟨hnone, hk⟩ | ⟨k, hkey, _, _, hk⟩ | ⟨k, hkey, _, hk⟩ <;> cases hk.symm.trans h
  · rw [if_pos (State.keys_eq_zero_iff.2 hnone)]
  · rw [if_neg (hheld hkey)]; rfl
  · rw [if_neg (hheld hkey)]; rfl

theorem storeNext_pc {bs : List Byte} (h : storeNext bs s = .next t) : t.pc = s.pc + 2#16 := by
  rcases storeNext_cases bs s with ⟨_, hstore⟩ | ⟨_, _, hstore⟩ <;> cases hstore.symm.trans h
  rw [State.advance_pc, State.setBytes_pc]

/-- The table of R13, row by row. -/
theorem exec_pc (h : exec i s = .next t) : t.pc = pcAfter s i := by
  cases i
  case sys nnn =>
    rcases execSys_cases nnn s with ⟨_, hs⟩ | ⟨hb, hs⟩ | ⟨hb, hs⟩ <;> cases hs.symm.trans h
    · simp [pcAfter, hb]
    · simp [pcAfter, hb, zext16_eq_ofNat]
  case ret =>
    rcases execRet_cases s with ⟨a, ha, hr⟩ | ⟨_, hr⟩ <;> cases hr.symm.trans h
    simp [pcAfter, List.getLastD_eq_getLast?, ha]
  case call nnn =>
    rcases execCall_cases nnn s with ⟨_, hc⟩ | ⟨_, hc⟩ <;> cases hc.symm.trans h
    exact zext16_eq_ofNat nnn (by decide)
  case jp nnn => cases h; exact zext16_eq_ofNat nnn (by decide)
  case jpV0 nnn => cases h; exact s.offsetTarget_eq_ofNat nnn
  case seImm | seReg => cases h; exact State.skipIf_pc_ite beq_iff_eq
  case sneImm | sneReg => cases h; exact State.skipIf_pc_ite_not bne_iff_ne
  case skp => cases h; exact State.skipIf_pc_ite State.pressed_iff
  case sknp => cases h; exact State.skipIf_pc_ite_not (by rw [Bool.not_eq_true', State.pressed_eq_false_iff]; rfl)
  case ldVxK x => exact exec_ldVxK_pc h
  case ldB | ldMemVx => exact storeNext_pc h
  case ldVxMem x =>
    rcases execLdVxMem_cases x s with ⟨_, hl⟩ | ⟨_, hl⟩ <;> cases hl.symm.trans h
    rfl
  case drw x y n =>
    rcases execDrw_cases x y n s with ⟨_, hd⟩ | ⟨_, _, hd⟩ <;> cases hd.symm.trans h
    rfl
  -- what is left ends in `next`
  all_goals cases h; rfl

/-- A step that faults delivers the fault and the state it began in (60_exceptions R147). -/
theorem deliver_step_of_fault {f : Fault} (h : step s = .fault f) : deliver .step s = (s, .fault f) := by
  simp [deliver, hostEvent, h]

/-- Settles O51: row by row of the table, and `deliver` hands back the state a fault left alone. -/
theorem pcAfterEveryInstruction : Obligations.PcAfterEveryInstruction :=
  ⟨fun _ _ _ => exec_pc, fun _ _ => deliver_step_of_fault⟩

/-! ## The bound of `pc` -/

theorem pc_add_toNat_le {a : Word} (hpc : s.pc.toNat ≤ 0xFFE) (ha : a.toNat ≤ 4) :
    (s.pc + a).toNat ≤ 0x10FE := by
  rw [BitVec.toNat_add]
  omega

theorem ofNat_toNat_le {n : Nat} (h : n ≤ 0x10FE) : (BitVec.ofNat 16 n).toNat ≤ 0x10FE := by
  rw [BitVec.toNat_ofNat]
  exact (Nat.mod_le _ _).trans h

/-- From a `pc` a fetch can read, no row of the table but that of `RET` leads above 0xFF + 0xFFF. -/
theorem pcAfter_toNat_le (hpc : s.pc.toNat ≤ 0xFFE) (hret : i ≠ .ret) : (pcAfter s i).toNat ≤ 0x10FE := by
  have h2 : (s.pc + 2#16).toNat ≤ 0x10FE := pc_add_toNat_le hpc (by decide)
  have h4 : (s.pc + 4#16).toNat ≤ 0x10FE := pc_add_toNat_le hpc (by decide)
  have haddr : ∀ nnn : BitVec 12, (BitVec.ofNat 16 nnn.toNat).toNat ≤ 0x10FE := fun nnn =>
    ofNat_toNat_le (by have := nnn.isLt; omega)
  cases i
  case ret => exact absurd rfl hret
  case jp nnn | call nnn => exact haddr nnn
  case sys nnn => rw [pcAfter]; split_ifs; exacts [haddr nnn, h2]
  case jpV0 nnn => exact ofNat_toNat_le (by have := nnn.isLt; have := (s.reg 0).isLt; omega)
  case seImm | seReg | skp => rw [pcAfter]; split_ifs; exacts [h4, h2]
  case sneImm | sneReg | sknp => rw [pcAfter]; split_ifs; exacts [h2, h4]
  case ldVxK => rw [pcAfter]; split_ifs; exacts [hpc.trans (by decide), h2]
  all_goals exact h2

/-- Settles O52: a step fetched at 0xFFE or below, so the table bounds `pc`; `RET` alone takes it from the stack. -/
theorem pcBoundedOrPopped : Obligations.PcBoundedOrPopped := by
  intro s t h
  obtain ⟨i, hi, hexec⟩ := step_next h
  by_cases hret : i = .ret
  · subst hret
    rcases execRet_cases s with ⟨a, ha, hr⟩ | ⟨_, hr⟩ <;> cases hr.symm.trans hexec
    exact .inr (List.mem_of_getLast? ha)
  · rw [exec_pc hexec]
    exact .inl (pcAfter_toNat_le (fetchDecode_pc hi) hret)

theorem step_of_fetchDecode_ok (h : fetchDecode s = .ok i) : step s = exec i s := by simp [step, h]

/-- Settles O54: the step runs the jump, which writes back the `pc` it finds. -/
theorem stoppedStateStaysStopped : Obligations.StoppedStateStaysStopped := by
  rintro s ⟨nnn, hjp, hself⟩
  have hstep : step s = .next s := by rw [step_of_fetchDecode_ok hjp, exec_jp, hself, State.setPc_self]
  refine ⟨hstep, ?_, ?_⟩
  · rintro ⟨f, hfault⟩
    cases hstep.symm.trans hfault
  · rintro ⟨x, hkey, _⟩
    cases hjp.symm.trans hkey

end Sys2Proof.Machine
end

section
/-! The invariant: canonical memory within 0x000 to 0xFFF, and a stack within its depth (10_state R15, R18, R20). -/

namespace Sys2Proof.Machine

open Sys2Proof.Claims

variable {s t : State} {i : Instr}

theorem Memory.wf_nil (font : Vector Byte 80) : Memory.wf font [] :=
  ⟨List.Pairwise.nil, fun _ h => absurd h List.not_mem_nil⟩

theorem State.inv_skipIf (hs : s.Inv) (c : Bool) : (s.skipIf c).Inv := by cases c <;> exact hs

/-- A block write within memory keeps the invariant. -/
theorem State.inv_setBytes {base : Nat} {bs : List Byte} (hs : s.Inv)
    (hr : bs.length = 0 ∨ base + bs.length ≤ 0x1000) : (s.setBytes base bs).Inv := by
  constructor
  · rcases hr with h0 | hr
    · rw [List.length_eq_zero_iff.1 h0]
      exact hs.1
    · exact State.memOk_setBytes hs.1 hr
  · rw [State.stackOk, State.setBytes_params, State.setBytes_stack]
    exact hs.2

theorem storeNext_inv {bs : List Byte} (hs : s.Inv) (h : storeNext bs s = .next t) : t.Inv := by
  rcases storeNext_cases bs s with ⟨hr, hstore⟩ | ⟨_, _, hstore⟩ <;> cases hstore.symm.trans h
  exact State.inv_setBytes hs hr

/-- A return only shortens the stack. -/
theorem execRet_inv (hs : s.Inv) (h : execRet s = .next t) : t.Inv := by
  rcases execRet_cases s with ⟨a, _, hr⟩ | ⟨_, hr⟩ <;> cases hr.symm.trans h
  refine ⟨hs.1, fun d hd => ?_⟩
  rw [State.setStack_stack, List.length_dropLast]
  exact (Nat.sub_le _ _).trans (hs.2 d hd)

/-- A call that completes found the stack not at its depth, so it had room for one entry (40_control_transfer R73). -/
theorem execCall_inv {nnn : BitVec 12} (hs : s.Inv) (h : execCall nnn s = .next t) : t.Inv := by
  rcases execCall_cases nnn s with ⟨hdepth, hc⟩ | ⟨_, hc⟩ <;> cases hc.symm.trans h
  refine ⟨hs.1, fun d hd => ?_⟩
  have hne : s.stack.length ≠ d := fun heq => hdepth (heq ▸ hd)
  rw [State.setPc_stack, State.setStack_stack, List.length_append, List.length_singleton]
  exact Nat.succ_le_of_lt (lt_of_le_of_ne (hs.2 d hd) hne)

theorem exec_inv (hs : s.Inv) (h : exec i s = .next t) : t.Inv := by
  cases i
  case ret => exact execRet_inv hs h
  case call nnn => exact execCall_inv hs h
  case ldB | ldMemVx => exact storeNext_inv hs h
  case seImm | sneImm | seReg | sneReg | skp | sknp => cases h; exact State.inv_skipIf hs _
  case sys nnn =>
    rcases execSys_cases nnn s with ⟨_, hr⟩ | ⟨_, hr⟩ | ⟨_, hr⟩ <;> cases hr.symm.trans h <;> exact hs
  case ldVxMem x =>
    rcases execLdVxMem_cases x s with ⟨_, hr⟩ | ⟨_, hr⟩ <;> cases hr.symm.trans h
    exact hs
  case drw x y n =>
    rcases execDrw_cases x y n s with ⟨_, hr⟩ | ⟨_, _, hr⟩ <;> cases hr.symm.trans h
    exact hs
  case ldVxK x =>
    rcases execLdVxK_cases x s with ⟨_, hr⟩ | ⟨_, _, _, _, hr⟩ | ⟨_, _, _, hr⟩ <;> cases hr.symm.trans h <;> exact hs
  -- what is left is a chain of field updates, none of them of memory, the stack or the parameters
  all_goals cases h; exact hs

theorem step_inv (hs : s.Inv) (h : step s = .next t) : t.Inv := by
  obtain ⟨i, _, hexec⟩ := step_next h
  exact exec_inv hs hexec

/-- Settles O48: each instruction keeps the invariant, and a step runs one. -/
theorem stepKeepsInvariant : Obligations.StepKeepsInvariant := fun _ _ => step_inv

theorem step_params (h : step s = .next t) : t.params = s.params := by
  obtain ⟨i, _, hexec⟩ := step_next h
  exact exec_params hexec

/-- Whatever the state before, a reset that completes leaves a state with the invariant: its stack override was checked,
and its memory is written cell by cell within bounds. -/
theorem hostEvent_reset_inv {o : ResetOptions} (h : hostEvent (.reset o) s = .next t) : t.Inv := by
  obtain ⟨hlegal, rfl⟩ := hostEvent_reset_next h
  obtain ⟨hstack, hmem⟩ := (resetOptionsLegal_iff s o).1 hlegal
  refine State.inv_setBytes ⟨memOk_setCells (Memory.wf_nil _) hmem, ?_⟩
    (.inr (by rw [Vector.length_toList]; decide))
  intro d hd
  rw [overridden_params] at hd
  rw [overridden, setCells_stack]
  cases ho : o.stack with
  | none => simp [resetFields, ho, State.reset]
  | some es => simpa [resetFields, ho] using hstack d es hd ho

theorem hostEvent_load_inv {bytes : List Byte} {start : Nat} (hs : s.Inv)
    (h : hostEvent (.load bytes start) s = .next t) : t.Inv ∧ t.params = s.params := by
  rcases load_cases s bytes start with ⟨hr, hload⟩ | ⟨_, hload⟩ <;> cases hload.symm.trans h
  exact ⟨State.inv_setBytes hs (.inr hr), s.setBytes_params start bytes⟩

/-- Settles O49: one lemma for each of the events that can write memory or the stack; the others write neither. -/
theorem everyEventKeepsInvariant : Obligations.EveryEventKeepsInvariant := by
  intro e s t hs h
  cases e with
  | reset o =>
    obtain ⟨_, ht⟩ := hostEvent_reset_next h
    exact ⟨hostEvent_reset_inv h, by rw [ht, writeFont_params, overridden_params]⟩
  | load bytes start => exact hostEvent_load_inv hs h
  | step => exact ⟨step_inv hs h, step_params h⟩
  | tick | keyDown k | keyUp k => cases h; exact ⟨hs, rfl⟩

/-- Settles O47: nothing is listed in memory, and the empty stack is within any depth. -/
theorem resetMeetsInvariant : Obligations.ResetMeetsInvariant :=
  ⟨reset_memOk, fun d _ => Nat.zero_le d⟩

end Sys2Proof.Machine
end

section
/-! Control transfer: `SYS`, `CALL` and its return, and the skips on two registers and on a key (40_control_transfer
R70, R73, R76, R77; 44_keypad_timers R131, R132). -/

namespace Sys2Proof.Machine

open Sys2Proof.Claims

variable {s t : State}

/-- Settles O11: one case of `SYS` for each value of its parameter. -/
theorem sysFaultsUnlessParameterSaysOtherwise : Obligations.SysFaultsUnlessParameterSaysOtherwise := by
  intro nnn s
  rcases execSys_cases nnn s with ⟨hb, hs⟩ | ⟨hb, hs⟩ | ⟨hb, hs⟩ <;>
    simp only [hb, reduceCtorEq, false_implies, true_implies, true_and, and_true]
  · exact hs
  · exact ⟨_, hs, rfl, s.advance_keepsAllBut_pc⟩
  · exact ⟨_, hs, zext16_toNat nnn (by decide), s.setPc_keepsAllBut_pc _⟩

theorem exec_call_of_not_full {nnn : BitVec 12} (h : s.params.stackDepth ≠ some s.stack.length) :
    exec (.call nnn) s = .next ((s.setStack (s.stack ++ [s.pc + 2#16])).setPc (zext16 nnn)) := by
  rcases execCall_cases nnn s with ⟨_, hc⟩ | ⟨hfull, _⟩
  · exact hc
  · exact absurd hfull h

/-- Settles O14: a stack not at its depth takes the entry, and the depth is the one cause to fault. -/
theorem callPushesReturnAddress : Obligations.CallPushesReturnAddress :=
  fun nnn _ => ⟨fun h => ⟨_, exec_call_of_not_full h, rfl, zext16_toNat nnn (by decide), rfl⟩,
    fun h => exec_fault (if_pos h)⟩

theorem exec_call_stack {nnn : BitVec 12} (h : exec (.call nnn) s = .next t) : t.stack = s.stack ++ [s.pc + 2#16] := by
  rcases execCall_cases nnn s with ⟨_, hc⟩ | ⟨_, hc⟩ <;> cases hc.symm.trans h
  rfl

/-- Settles O18: `RET` pops the entry `CALL` appended. -/
theorem returnUndoesCall : Obligations.ReturnUndoesCall :=
  fun _ _ _ _ hcall hstack => ⟨_, exec_ret_of_stack_append (hstack.trans (exec_call_stack hcall)), rfl, rfl⟩

@[simp] theorem exec_seReg (x y : Reg) (s : State) :
    exec (.seReg x y) s = .next (s.skipIf (s.reg x == s.reg y)) := rfl

@[simp] theorem exec_sneReg (x y : Reg) (s : State) :
    exec (.sneReg x y) s = .next (s.skipIf (s.reg x != s.reg y)) := rfl

@[simp] theorem exec_skp (x : Reg) (s : State) : exec (.skp x) s = .next (s.skipIf (s.pressed (s.reg x))) := rfl

@[simp] theorem exec_sknp (x : Reg) (s : State) : exec (.sknp x) s = .next (s.skipIf (!s.pressed (s.reg x))) := rfl

/-- Settles O16: both skips are `skipIf`, on the condition and on its negation. -/
theorem skipRegisterMovesPc : Obligations.SkipRegisterMovesPc := by
  intro x y s
  constructor
  · exact ⟨_, exec_seReg x y s, s.skipIf_reg _ vf, fun heq => State.skipIf_pc_of_true (beq_iff_eq.2 heq),
      fun hne => State.skipIf_pc_of_false (beq_eq_false_iff_ne.2 hne)⟩
  · exact ⟨_, exec_sneReg x y s, s.skipIf_reg _ vf, fun hne => State.skipIf_pc_of_true (bne_iff_ne.2 hne),
      fun heq => State.skipIf_pc_of_false (bne_eq_false_iff_eq.2 heq)⟩

/-- Settles O37: both skips are `skipIf`, on the key being held and on its negation. -/
theorem keySkipsTestHeldKey : Obligations.KeySkipsTestHeldKey := by
  intro x s
  constructor
  · exact ⟨_, exec_skp x s, s.skipIf_keys _, s.skipIf_reg _ vf,
      fun hheld => State.skipIf_pc_of_true (State.pressed_iff.2 hheld),
      fun hfree => State.skipIf_pc_of_false (State.pressed_eq_false_iff.2 hfree)⟩
  · exact ⟨_, exec_sknp x s, s.skipIf_keys _, s.skipIf_reg _ vf,
      fun hfree => State.skipIf_pc_of_true (by rw [State.pressed_eq_false_iff.2 hfree]; rfl),
      fun hheld => State.skipIf_pc_of_false (by rw [State.pressed_iff.2 hheld]; rfl)⟩

end Sys2Proof.Machine
end

section
/-! Arithmetic, logic and shifts: the next state of each instruction, and the values its writes leave (41_load_alu R94
to R102). -/

namespace Sys2Proof.Machine

open Sys2Proof.Claims

/-! ## Flags and byte arithmetic as numbers -/

theorem flagByte_toNat (p : Prop) [Decidable p] : (flagByte (decide p)).toNat = if p then 1 else 0 := by
  unfold flagByte
  split_ifs <;> simp_all

theorem carryFlag_toNat (a b : Byte) : (carryFlag a b).toNat = if a.toNat + b.toNat > 255 then 1 else 0 :=
  flagByte_toNat _

theorem greaterFlag_toNat (a b : Byte) : (greaterFlag a b).toNat = if a.toNat > b.toNat then 1 else 0 :=
  flagByte_toNat _

theorem lsbFlag_toNat (a : Byte) : (lsbFlag a).toNat = a.toNat % 2 := by
  rw [lsbFlag, BitVec.toNat_and]
  exact Nat.and_one_is_mod _

theorem msbFlag_toNat (a : Byte) : (msbFlag a).toNat = a.toNat / 128 := by
  have ha := a.isLt
  have hand : (a.toNat / 128) &&& 1 = a.toNat / 128 % 2 := Nat.and_one_is_mod _
  rw [msbFlag, BitVec.toNat_and, BitVec.toNat_ushiftRight, Nat.shiftRight_eq_div_pow]
  exact hand.trans (by omega)

theorem byte_sub_toNat (a b : Byte) : (a - b).toNat = (256 + a.toNat - b.toNat) % 256 := by
  have hb := b.isLt
  rw [BitVec.toNat_sub]
  congr 1
  omega

theorem byte_shiftLeft_one_toNat (a : Byte) : (a <<< 1).toNat = a.toNat * 2 % 256 := by
  rw [BitVec.toNat_shiftLeft, Nat.shiftLeft_eq]

theorem byte_ushiftRight_one_toNat (a : Byte) : (a >>> 1).toNat = a.toNat / 2 := by
  rw [BitVec.toNat_ushiftRight, Nat.shiftRight_eq_div_pow]

/-! ## The instructions -/

variable (x y : Reg) (kk : Byte) (s : State)

@[simp] theorem exec_orReg : exec (.orReg x y) s = .next (s.setReg x (s.reg x ||| s.reg y)).advance := rfl

@[simp] theorem exec_andReg : exec (.andReg x y) s = .next (s.setReg x (s.reg x &&& s.reg y)).advance := rfl

@[simp] theorem exec_xorReg : exec (.xorReg x y) s = .next (s.setReg x (s.reg x ^^^ s.reg y)).advance := rfl

@[simp] theorem exec_rnd :
    exec (.rnd x kk) s = .next (s.countDraw.setReg x (Config.rnd s.draws &&& kk)).advance := rfl

@[simp] theorem exec_addReg : exec (.addReg x y) s =
    .next ((s.setReg vf (carryFlag (s.reg x) (s.reg y))).setReg x (s.reg x + s.reg y)).advance := rfl

/-- `V[x] <- V[a] - V[b]` after `VF <- flag`: the registers are read after the flag is written (D8). -/
def subtractAfterFlag (flag : Byte) (a b x : Reg) (s : State) : State :=
  ((s.setReg vf flag).setReg x ((s.setReg vf flag).reg a - (s.setReg vf flag).reg b)).advance

@[simp] theorem exec_sub : exec (.sub x y) s =
    .next (subtractAfterFlag (greaterFlag (s.reg x) (s.reg y)) x y x s) := rfl

@[simp] theorem exec_subn : exec (.subn x y) s =
    .next (subtractAfterFlag (greaterFlag (s.reg y) (s.reg x)) y x x s) := rfl

@[simp] theorem exec_shr : exec (.shr x) s = .next ((s.setReg vf (lsbFlag (s.reg x))).setReg x
    ((s.setReg vf (lsbFlag (s.reg x))).reg x >>> 1)).advance := rfl

@[simp] theorem exec_shl : exec (.shl x) s = .next ((s.setReg vf (msbFlag (s.reg x))).setReg x
    ((s.setReg vf (msbFlag (s.reg x))).reg x <<< 1)).advance := rfl

variable {x y s}

/-- Where the destination is not `VF`, the flag stays. -/
theorem State.setReg_vf_setReg_advance_vf {flag b : Byte} (h : x ≠ vf) :
    ((s.setReg vf flag).setReg x b).advance.reg vf = flag := by
  rw [State.setReg_advance_reg_ne _ b h, State.setReg_reg_self]

theorem subtractAfterFlag_vf {flag : Byte} {a b : Reg} (h : x ≠ vf) : (subtractAfterFlag flag a b x s).reg vf = flag :=
  State.setReg_vf_setReg_advance_vf h

/-- The difference, each operand replaced by the flag where it names `VF`. -/
theorem subtractAfterFlag_dest_toNat (flag : Byte) (a b : Reg) : ((subtractAfterFlag flag a b x s).reg x).toNat =
    (256 + (if a = vf then flag else s.reg a).toNat - (if b = vf then flag else s.reg b).toNat) % 256 := by
  rw [subtractAfterFlag, State.setReg_advance_reg_self, byte_sub_toNat, State.setReg_reg, State.setReg_reg]

theorem subtractAfterFlag_vf_vf (flag : Byte) : (subtractAfterFlag flag vf vf vf s).reg vf = 0#8 := by
  rw [subtractAfterFlag, State.setReg_advance_reg_self, BitVec.sub_self]

/-- Settles O22: the register written takes the bitwise operation of the old values. -/
theorem logicWorksBitwise : Obligations.LogicWorksBitwise := by
  intro x y s
  refine ⟨⟨_, exec_orReg x y s, rfl, s.setReg_advance_reg_ne _, fun k _ => ?_⟩,
    ⟨_, exec_andReg x y s, rfl, s.setReg_advance_reg_ne _, fun k _ => ?_⟩,
    ⟨_, exec_xorReg x y s, rfl, s.setReg_advance_reg_ne _, fun k _ => ?_⟩⟩
  · rw [State.setReg_advance_reg_self, BitVec.getLsbD_or]
  · rw [State.setReg_advance_reg_self, BitVec.getLsbD_and]
  · rw [State.setReg_advance_reg_self, BitVec.getLsbD_xor]

/-- Settles O23: the sum is written last, over the carry where `x` is `VF`. -/
theorem addRegSetsCarry : Obligations.AddRegSetsCarry := by
  intro x y s
  refine ⟨_, exec_addReg x y s, ?_, fun hx => ?_, rfl⟩
  · rw [State.setReg_advance_reg_self, BitVec.toNat_add]
  · rw [State.setReg_vf_setReg_advance_vf hx, carryFlag_toNat]

/-- Settles O24: both are one subtraction after the flag, read at each of the four cases of `x` and `y` being `VF`. -/
theorem subtractSetsGreaterFlag : Obligations.SubtractSetsGreaterFlag := by
  intro x y s
  refine ⟨⟨_, exec_sub x y s, rfl, _, greaterFlag_toNat _ _, ?_⟩,
    ⟨_, exec_subn x y s, rfl, _, greaterFlag_toNat _ _, ?_⟩⟩
  all_goals
    refine ⟨fun hx => by rw [subtractAfterFlag_vf hx], fun hx hy => ?_, ?_, ?_, ?_⟩
    · rw [subtractAfterFlag_dest_toNat, if_neg hx, if_neg hy]
    · rintro hx rfl
      rw [subtractAfterFlag_dest_toNat, if_neg hx, if_pos rfl]
    · rintro rfl hy
      rw [subtractAfterFlag_dest_toNat, if_pos rfl, if_neg hy]
    · rintro rfl rfl
      exact subtractAfterFlag_vf_vf _

/-- Settles O25: the shift reads the old register, and where that is `VF` the bit shifted out. -/
theorem shiftsCaptureLostBit : Obligations.ShiftsCaptureLostBit := by
  intro x s
  constructor
  · refine ⟨_, exec_shr x s, rfl, fun hx => ⟨?_, ?_⟩, ?_⟩
    · rw [State.setReg_vf_setReg_advance_vf hx, lsbFlag_toNat]
    · rw [State.setReg_advance_reg_self, State.setReg_reg_ne _ _ _ hx, byte_ushiftRight_one_toNat]
    · rintro rfl
      apply BitVec.eq_of_toNat_eq
      rw [State.setReg_advance_reg_self, State.setReg_reg_self, byte_ushiftRight_one_toNat, lsbFlag_toNat]
      exact Nat.div_eq_of_lt (Nat.mod_lt _ (by decide))
  · refine ⟨_, exec_shl x s, rfl, fun hx => ⟨?_, ?_⟩, ?_⟩
    · rw [State.setReg_vf_setReg_advance_vf hx, msbFlag_toNat]
    · rw [State.setReg_advance_reg_self, State.setReg_reg_ne _ _ _ hx, byte_shiftLeft_one_toNat]
    · rintro rfl
      have hlt := (s.reg vf).isLt
      rw [State.setReg_advance_reg_self, State.setReg_reg_self, byte_shiftLeft_one_toNat, msbFlag_toNat]
      omega

/-- Settles O26: the register written takes the masked draw, which has no bit outside the mask. -/
theorem rndMasksDraw : Obligations.RndMasksDraw := by
  intro x kk s
  have hreg : (s.countDraw.setReg x (Config.rnd s.draws &&& kk)).advance.reg x = Config.rnd s.draws &&& kk :=
    State.setReg_advance_reg_self _ x _
  refine ⟨_, exec_rnd x kk s, ?_, ?_, hreg, rfl, rfl, State.setReg_advance_reg_ne _ _⟩
  · rw [hreg, BitVec.and_assoc, BitVec.and_not_self]
    exact BitVec.and_zero
  · rintro rfl
    rw [hreg, BitVec.and_zero]

end Sys2Proof.Machine
end

section
/-! Arithmetic on the index register (42_index_memory R112, R113), the key wait and the beep (44_keypad_timers R134,
R136). -/

namespace Sys2Proof.Machine

open Sys2Proof.Claims

@[simp] theorem exec_addI (x : Reg) (s : State) :
    exec (.addI x) s = .next (s.setI (s.i + zext16 (s.reg x))).advance := rfl

@[simp] theorem exec_ldF (x : Reg) (s : State) : exec (.ldF x) s = .next (s.setI (glyphAddr (s.reg x))).advance := rfl

@[simp] theorem exec_ldStVx (x : Reg) (s : State) : exec (.ldStVx x) s = .next s.emitBeep.advance := rfl

/-- Five times the largest byte is 1275, so the 16-bit product never wraps (42_index_memory R113). -/
theorem glyphAddr_toNat (b : Byte) : (glyphAddr b).toNat = b.toNat * 5 := by
  have hb := b.isLt
  rw [glyphAddr, BitVec.toNat_mul, zext16_toNat b (by decide)]
  exact Nat.mod_eq_of_lt (by simp only [BitVec.toNat_ofNat]; omega)

/-- Settles O28: both write `I` alone, one the 16-bit sum, one the product. -/
theorem indexArithmetic : Obligations.IndexArithmetic := by
  intro x s
  refine ⟨⟨_, exec_addI x s, ?_, rfl, rfl⟩, ⟨_, exec_ldF x s, glyphAddr_toNat _, rfl, rfl⟩⟩
  rw [State.advance_i, State.setI_i, BitVec.toNat_add, zext16_toNat _ (by decide)]

/-- With a key held the wait ends with a held key in `Vx`, the lowest one under `KEY_SELECT = lowest`. -/
theorem exec_ldVxK_of_held {x : Reg} {s : State} (h : ∃ k : Key, s.keys.getLsbD k.val = true) :
    ∃ t, exec (.ldVxK x) s = .next t ∧ t.pc = s.pc + 2#16 ∧
      ∃ k : Key, s.keys.getLsbD k.val = true ∧ (t.reg x).toNat = k.val ∧
        (s.params.keySelect = .lowest → ∀ j : Key, j < k → s.keys.getLsbD j.val = false) := by
  rcases execLdVxK_cases x s with ⟨hnone, _⟩ | ⟨k, hk, hmin, _, hexec⟩ | ⟨k, hk, hany, hexec⟩
  · obtain ⟨k, hk⟩ := h
    exact absurd ((hnone k).symm.trans hk) Bool.false_ne_true
  · refine ⟨_, hexec, rfl, k, hk, ?_, fun _ => hmin⟩
    rw [State.setReg_advance_reg_self, keyByte_toNat]
  · refine ⟨_, hexec, rfl, k, hk, ?_, fun hlow => by simp [hany] at hlow⟩
    rw [State.setReg_advance_reg_self, keyByte_toNat]

theorem exec_ldVxK_of_none_held {x : Reg} {s : State} (h : ∀ k : Key, s.keys.getLsbD k.val = false) :
    exec (.ldVxK x) s = .next s := by
  rcases execLdVxK_cases x s with ⟨_, hexec⟩ | ⟨k, hk, _⟩ | ⟨k, hk, _⟩
  · exact hexec
  · exact absurd ((h k).symm.trans hk) Bool.false_ne_true
  · exact absurd ((h k).symm.trans hk) Bool.false_ne_true

/-- Settles O39: one lemma for no key held and one for a key held. -/
theorem keyWaitTakesHeldKey : Obligations.KeyWaitTakesHeldKey :=
  fun _ _ => ⟨exec_ldVxK_of_none_held, exec_ldVxK_of_held⟩

/-- Settles O40: the beep reads no register, so it commutes with writing one. -/
theorem ldStEmitsOneBeep : Obligations.LdStEmitsOneBeep :=
  fun x s => ⟨_, exec_ldStVx x s, rfl, rfl, rfl, fun _ => rfl⟩

end Sys2Proof.Machine
end

section
/-! Fetch, and the word placed where the next fetch reads it (30_encoding R50, 20_memory R31, R32). -/

namespace Sys2Proof.Machine

open Sys2Proof.Claims

variable {s : State}

theorem fetch_of_pc_le (h : s.pc.toNat ≤ 0xFFE) :
    fetch s = .ok (wordOfBytes (s.byte s.pc.toNat) (s.byte (s.pc.toNat + 1))) := by
  rcases fetch_cases s with ⟨_, hok⟩ | ⟨habove, _⟩
  · exact hok
  · omega

theorem step_of_pc_above (h : 0xFFE < s.pc.toNat) : step s = .fault (.addressOutOfRange (max s.pc.toNat 0x1000)) := by
  rcases fetch_cases s with ⟨hle, _⟩ | ⟨_, herror⟩
  · omega
  · exact step_of_fetch_error herror

/-- Settles O8: the two bytes of the fetched word, and the one cause for a fetch to fault. -/
theorem fetchReadsTwoBytesBigEndian : Obligations.FetchReadsTwoBytesBigEndian :=
  fun _ => ⟨fun h => ⟨_, fetch_of_pc_le h, highByte_wordOfBytes _ _, lowByte_wordOfBytes _ _⟩, step_of_pc_above⟩

/-- Placing a 16-bit word writes its two bytes at `pc` (log row 20). -/
theorem State.withFetchWord_eq_setBytes (op : Word) (h : s.pc.toNat ≤ 0xFFE) :
    s.withFetchWord 16 op.toNat = s.setBytes s.pc.toNat [highByte op, lowByte op] := by
  have hop : BitVec.ofNat 16 (op.toNat % 2 ^ 16) = op := by
    rw [Nat.mod_eq_of_lt op.isLt, BitVec.ofNat_toNat, BitVec.setWidth_eq]
  have hrange : rangeFault s.pc.toNat 2 = none := rangeFault_eq_none.2 (.inr (by simp only [maxAddr]; omega))
  rw [State.withFetchWord, hop, placeWord, hrange]

theorem fetch_withFetchWord (op : Word) (h : s.pc.toNat ≤ 0xFFE) : fetch (s.withFetchWord 16 op.toNat) = .ok op := by
  rw [State.withFetchWord_eq_setBytes op h]
  have hhigh : (s.setBytes s.pc.toNat [highByte op, lowByte op]).byte s.pc.toNat = highByte op :=
    s.setBytes_byte_of_getElem? (j := 0) rfl
  have hlow : (s.setBytes s.pc.toNat [highByte op, lowByte op]).byte (s.pc.toNat + 1) = lowByte op :=
    s.setBytes_byte_of_getElem? (j := 1) rfl
  rw [fetch_of_pc_le (by rwa [State.setBytes_pc]), State.setBytes_pc, hhigh, hlow, wordOfBytes_bytes]

/-- Settles O9: the next fetch reads the placed word, which decodes to the instruction; placing writes two bytes. -/
theorem placedInstructionRuns : Obligations.PlacedInstructionRuns := by
  intro s i hwf hpc
  refine ⟨step_of_decode_ok (fetch_withFetchWord _ hpc) (decode_encode hwf), ?_, fun a h0 h1 => ?_⟩
  · rw [State.withFetchWord_eq_setBytes _ hpc]
    exact s.setBytes_keepsAllBut_mem _ _
  · rw [State.withFetchWord_eq_setBytes _ hpc]
    exact s.setBytes_byte_outside (by simp only [List.length_cons, List.length_nil]; omega)

end Sys2Proof.Machine
end

section
/-! Block moves: what a store from `I` and a load from `I` leave behind (42_index_memory R114 to R116). -/

namespace Sys2Proof.Machine

open Sys2Proof.Claims

variable {s t : State} {bs : List Byte} {x : Reg}

/-! ## A store from `I` -/

theorem storeNext_of_fits (h : s.i.toNat + bs.length ≤ 0x1000) :
    storeNext bs s = .next (s.setBytes s.i.toNat bs).advance := by
  rcases storeNext_cases bs s with ⟨_, hnext⟩ | ⟨_, habove, _⟩
  · exact hnext
  · omega

theorem storeNext_byte_of_getElem? {j : Nat} {b : Byte} (h : storeNext bs s = .next t) (hj : bs[j]? = some b) :
    t.byte (s.i.toNat + j) = b := by
  rcases storeNext_cases bs s with ⟨_, hnext⟩ | ⟨_, _, hfault⟩
  · cases hnext.symm.trans h
    exact s.setBytes_byte_of_getElem? hj
  · cases hfault.symm.trans h

/-- A store that fits completes, and writes neither a register nor `I`. -/
theorem storeNext_completes (h : s.i.toNat + bs.length ≤ 0x1000) :
    ∃ t, storeNext bs s = .next t ∧ t.i = s.i ∧ t.pc = s.pc + 2#16 ∧ t.reg vf = s.reg vf := by
  refine ⟨_, storeNext_of_fits h, ?_, ?_, ?_⟩ <;> simp

theorem byte_ofNat_toNat {n : Nat} (h : n < 256) : (BitVec.ofNat 8 n).toNat = n := by
  rw [BitVec.toNat_ofNat]
  exact Nat.mod_eq_of_lt h

/-- Settles O29: the digits are the three bytes of the store. -/
theorem ldBStoresDecimalDigits : Obligations.LdBStoresDecimalDigits := by
  intro x s
  refine ⟨fun h => ?_, fun h => exec_fault (dataFault_eq_some (by decide) (by omega))⟩
  have hb := (s.reg x).isLt
  obtain ⟨t, hstore, hi, hpc, hvf⟩ := storeNext_completes (s := s) (bs := decimalDigits (s.reg x))
    (show s.i.toNat + 3 ≤ 0x1000 by omega)
  have hhundreds := storeNext_byte_of_getElem? (j := 0) hstore rfl
  have htens := storeNext_byte_of_getElem? (j := 1) hstore rfl
  have hones := storeNext_byte_of_getElem? (j := 2) hstore rfl
  refine ⟨t, hstore, ?_, ?_, ?_, hi, hvf, hpc⟩
  · exact (congrArg BitVec.toNat hhundreds).trans (byte_ofNat_toNat (by omega))
  · exact (congrArg BitVec.toNat htens).trans (byte_ofNat_toNat (by omega))
  · exact (congrArg BitVec.toNat hones).trans (byte_ofNat_toNat (by omega))

theorem State.regsUpTo_getElem? {r : Reg} (h : r ≤ x) : (s.regsUpTo x)[r.val]? = some (s.reg r) := by
  have hlt : r.val < (s.regsUpTo x).length := by
    rw [State.regsUpTo_length]
    exact Nat.lt_succ_of_le h
  rw [List.getElem?_eq_getElem hlt, s.regsUpTo_getElem x r.val hlt r.isLt]

/-- What `LD [I], Vx` stored stands at `I + r` for each `r` up to `x`. -/
theorem exec_ldMemVx_byte (h : exec (.ldMemVx x) s = .next t) {r : Reg} (hr : r ≤ x) :
    t.byte (s.i.toNat + r.val) = s.reg r :=
  storeNext_byte_of_getElem? h (State.regsUpTo_getElem? hr)

theorem exec_ldMemVx_completes (h : s.i.toNat + x.val ≤ 0xFFF) :
    ∃ t, exec (.ldMemVx x) s = .next t ∧ t.i = s.i ∧ t.pc = s.pc + 2#16 ∧ t.reg vf = s.reg vf :=
  storeNext_completes (by rw [State.regsUpTo_length]; omega)

/-- Settles O30: the stored list holds `Vr` at place `r`. -/
theorem ldMemVxStoresRegisters : Obligations.LdMemVxStoresRegisters := by
  intro x s
  refine ⟨fun h => ?_, fun h => exec_fault (dataFault_eq_some (by omega) (by omega))⟩
  obtain ⟨t, hexec, hi, hpc, hvf⟩ := exec_ldMemVx_completes h
  exact ⟨t, hexec, fun r => exec_ldMemVx_byte hexec, hi, hpc, hvf⟩

/-- Settles O10: the store leaves `pc` at `I`, where the two bytes fetched are `V0` and `V1`. -/
theorem storedBytesAreFetchedNext : Obligations.StoredBytesAreFetchedNext := by
  intro x s hx hfits hi
  obtain ⟨t, hexec, _, hpc, _⟩ := exec_ldMemVx_completes hfits
  have hpci : t.pc.toNat = s.i.toNat := by rw [hpc, hi]
  have hfirst : t.byte s.i.toNat = s.reg 0 := exec_ldMemVx_byte hexec (Fin.zero_le x)
  have hsecond : t.byte (s.i.toNat + 1) = s.reg 1 := exec_ldMemVx_byte (r := 1) hexec hx
  refine ⟨t, hexec, ?_⟩
  rw [fetch_of_pc_le (by omega), hpci, hfirst, hsecond, wordOfBytes]

/-! ## A load from `I` -/

theorem exec_ldVxMem_of_fits (h : s.i.toNat + x.val ≤ 0xFFF) :
    exec (.ldVxMem x) s = .next (s.loadRegs (s.bytes s.i.toNat (x.val + 1))).advance := by
  rcases execLdVxMem_cases x s with ⟨_, hnext⟩ | ⟨habove, _⟩
  · exact hnext
  · omega

theorem exec_ldVxMem_reg (h : exec (.ldVxMem x) s = .next t) {r : Reg} (hr : r ≤ x) :
    t.reg r = s.byte (s.i.toNat + r.val) := by
  rcases execLdVxMem_cases x s with ⟨_, hload⟩ | ⟨_, hload⟩ <;> cases hload.symm.trans h
  rw [State.advance_reg, State.loadRegs_reg, s.bytes_getD _ _ _ _ (Nat.lt_succ_of_le hr)]

/-- Settles O31: the loaded list holds byte `I + r` at place `r`, and has no place above `x`. -/
theorem ldVxMemLoadsRegisters : Obligations.LdVxMemLoadsRegisters := by
  intro x s
  refine ⟨fun h => ?_, fun h => exec_fault (dataFault_eq_some (by omega) (by omega))⟩
  have hexec := exec_ldVxMem_of_fits h
  exact ⟨_, hexec, fun r => exec_ldVxMem_reg hexec, fun r hr => exec_ldVxMem_keepsRegsBut hexec r (not_le.2 hr),
    rfl, rfl⟩

theorem exec_ldMemVx_fits (h : exec (.ldMemVx x) s = .next t) : s.i.toNat + x.val ≤ 0xFFF := by
  by_contra habove
  have hfault : exec (.ldMemVx x) s = .fault _ := exec_fault (dataFault_eq_some (by omega) (by omega))
  cases hfault.symm.trans h

/-- Settles O32: the load reads, at the same `I`, the bytes the store left. -/
theorem loadBringsBackStoredRegisters : Obligations.LoadBringsBackStoredRegisters := by
  intro x s t u hstore hi hmem
  have hload := exec_ldVxMem_of_fits (s := u) (x := x) (by rw [hi]; exact exec_ldMemVx_fits hstore)
  refine ⟨_, hload, fun r hr => ?_, fun r hr => exec_ldVxMem_keepsRegsBut hload r (not_le.2 hr)⟩
  rw [exec_ldVxMem_reg hload hr, hi, hmem, exec_ldMemVx_byte hstore hr]

end Sys2Proof.Machine
end

section
/-! `DRW`: the plots of a sprite are the set bits that land on each pixel, so the draw is an exclusive or with the
sprite and its collision a pixel that was on under one of them (43_display R122). -/

namespace Sys2Proof.Machine

open Sys2Proof.Claims

variable {s t : State} {x y : Reg} {n : BitVec 4} {px py : Nat}

theorem State.pixel_of_coordinates (s : State) (py : Nat) (hpx : px < 64) :
    s.pixel (py * 64 + px) = Framebuffer.pixel s.fb px py := by
  have hcol : (py * 64 + px) % 64 = px := by omega
  have hrow : (py * 64 + px) / 64 = py := by omega
  rw [State.pixel, hcol, hrow]

/-- A coordinate is sampled after `VF` is cleared (43_display R122 (g), D15). -/
theorem coordinate_eq_reg (s : State) (x : Reg) : ((s.setReg vf 0x00#8).reg x).toNat = coordinate s x := by
  rw [State.setReg_reg, coordinate]
  split_ifs <;> rfl

/-- The plots of the sprite a `DRW` reads at `I`. -/
def spritePlots (s : State) (x y : Reg) (n : Nat) : List (Nat × Nat × Bool) :=
  spriteTargets (coordinate s x) (coordinate s y) (s.bytes s.i.toNat n)

theorem mem_spritePlots {n : Nat} {p : Nat × Nat × Bool} : p ∈ spritePlots s x y n ↔
    ∃ row col, row < n ∧ col < 8 ∧
      p = (coordinate s x + col, coordinate s y + row, (s.byte (s.i.toNat + row)).getLsbD (7 - col)) := by
  rw [spritePlots, mem_spriteTargets, State.bytes_length]
  refine exists_congr fun row => exists_congr fun col => and_congr_right fun hrow => ?_
  rw [State.bytes_getD s _ _ _ _ hrow]

/-- The sprite's bit on a pixel is set exactly when a plot of a 1 bit lands there. -/
theorem spriteBit_iff_plot {n : Nat} (hn : n ≤ 32) (hpx : px < 64) (hpy : py < 32) :
    spriteBit s x y n px py = true ↔
      ∃ p ∈ spritePlots s x y n, p.2.2 = true ∧ SamePixel p.1 p.2.1 px py := by
  simp only [spriteBit, Bool.and_eq_true, decide_eq_true_eq]
  constructor
  · rintro ⟨hcol, hrow, hbit⟩
    refine ⟨_, mem_spritePlots.2 ⟨_, _, hrow, hcol, rfl⟩, hbit, ?_, ?_⟩
    · show (coordinate s x + (px + 64 - coordinate s x % 64) % 64) % 64 = px % 64
      omega
    · show (coordinate s y + (py + 32 - coordinate s y % 32) % 32) % 32 = py % 32
      omega
  · rintro ⟨p, hp, hbit, hsame⟩
    obtain ⟨row, col, hrow, hcol, rfl⟩ := mem_spritePlots.1 hp
    obtain ⟨hx, hy⟩ : (coordinate s x + col) % 64 = px % 64 ∧ (coordinate s y + row) % 32 = py % 32 := hsame
    have hcol' : (px + 64 - coordinate s x % 64) % 64 = col := by omega
    have hrow' : (py + 32 - coordinate s y % 32) % 32 = row := by omega
    rw [hcol', hrow']
    exact ⟨hcol, hrow, hbit⟩

/-- A 1 bit of the sprite lands on a pixel that is on. -/
def Collides (s : State) (x y : Reg) (n : Nat) : Prop :=
  ∃ px < 64, ∃ py < 32, s.pixel (py * 64 + px) = true ∧ spriteBit s x y n px py = true

/-- The collision of the plots, looked up at the pixels they land on. -/
theorem any_plot_on_iff_collides {n : Nat} (hn : n ≤ 32) :
    (spritePlots s x y n).any (fun p => p.2.2 && Framebuffer.pixel s.fb p.1 p.2.1) = true ↔ Collides s x y n := by
  simp only [List.any_eq_true, Bool.and_eq_true]
  constructor
  · rintro ⟨p, hp, hbit, hon⟩
    have hpx : p.1 % 64 < 64 := Nat.mod_lt _ (by decide)
    have hpy : p.2.1 % 32 < 32 := Nat.mod_lt _ (by decide)
    have hsame : SamePixel p.1 p.2.1 (p.1 % 64) (p.2.1 % 32) := ⟨(Nat.mod_mod _ _).symm, (Nat.mod_mod _ _).symm⟩
    refine ⟨_, hpx, _, hpy, ?_, (spriteBit_iff_plot hn hpx hpy).2 ⟨p, hp, hbit, hsame⟩⟩
    rw [State.pixel_of_coordinates s _ hpx, ← Framebuffer.pixel_congr s.fb hsame]
    exact hon
  · rintro ⟨px, hpx, py, hpy, hon, hbit⟩
    obtain ⟨p, hp, hbit, hsame⟩ := (spriteBit_iff_plot hn hpx hpy).1 hbit
    refine ⟨p, hp, hbit, ?_⟩
    rw [Framebuffer.pixel_congr s.fb hsame, ← State.pixel_of_coordinates s _ hpx]
    exact hon

theorem drawSprite_fb (s : State) (x y : Reg) (rows : List Byte) : (drawSprite x y rows s).fb =
    (drawRows { fb := s.fb, hit := false } (coordinate s x) (coordinate s y) rows).fb := by
  rw [← coordinate_eq_reg, ← coordinate_eq_reg]
  rfl

theorem drawSprite_vf (s : State) (x y : Reg) (rows : List Byte) : (drawSprite x y rows s).reg vf =
    flagByte (drawRows { fb := s.fb, hit := false } (coordinate s x) (coordinate s y) rows).hit := by
  rw [← coordinate_eq_reg, ← coordinate_eq_reg]
  exact State.setReg_reg_self _ _ _

/-- A completed `DRW` drew the sprite it read at `I`, of at most 15 rows. -/
theorem exec_drw_next (h : exec (.drw x y n) s = .next t) :
    t = (drawSprite x y (s.bytes s.i.toNat n.toNat) s).advance ∧ n.toNat ≤ 32 := by
  have hn := n.isLt
  rcases execDrw_cases x y n s with ⟨_, hdraw⟩ | ⟨_, _, hdraw⟩ <;> cases hdraw.symm.trans h
  exact ⟨rfl, by omega⟩

/-- Each pixel is the old one, inverted where a 1 bit of the sprite lands. -/
theorem exec_drw_pixel (h : exec (.drw x y n) s = .next t) (hpx : px < 64) (hpy : py < 32) :
    t.pixel (py * 64 + px) = (s.pixel (py * 64 + px) ^^ spriteBit s x y n.toNat px py) := by
  obtain ⟨rfl, hn⟩ := exec_drw_next h
  have hplots : (spritePlots s x y n.toNat).any (fun p => p.2.2 && decide (SamePixel p.1 p.2.1 px py)) =
      spriteBit s x y n.toNat px py := by
    rw [Bool.eq_iff_iff, spriteBit_iff_plot hn hpx hpy]
    simp only [List.any_eq_true, Bool.and_eq_true, decide_eq_true_eq]
  rw [State.pixel_of_coordinates _ _ hpx, State.pixel_of_coordinates _ _ hpx, State.advance_fb, drawSprite_fb,
    drawRows_pixel _ _ _ (by rwa [State.bytes_length]), ← hplots, spritePlots]

/-- `VF` is the collision. -/
theorem exec_drw_vf (h : exec (.drw x y n) s = .next t) :
    ∃ c : Bool, t.reg vf = flagByte c ∧ (c = true ↔ Collides s x y n.toNat) := by
  obtain ⟨rfl, hn⟩ := exec_drw_next h
  refine ⟨_, drawSprite_vf s x y _, ?_⟩
  rw [drawRows_hit _ _ _ (by rwa [State.bytes_length]), Bool.false_or]
  exact any_plot_on_iff_collides hn

theorem exec_drw_vf_of_collides (h : exec (.drw x y n) s = .next t) (hc : Collides s x y n.toNat) :
    t.reg vf = 1#8 := by
  obtain ⟨c, hvf, hiff⟩ := exec_drw_vf h
  rw [hvf, hiff.2 hc, flagByte, if_pos rfl]

theorem exec_drw_vf_of_not_collides (h : exec (.drw x y n) s = .next t) (hc : ¬ Collides s x y n.toNat) :
    t.reg vf = 0#8 := by
  obtain ⟨c, hvf, hiff⟩ := exec_drw_vf h
  rw [hvf, Bool.eq_false_iff.2 (fun htrue => hc (hiff.1 htrue)), flagByte, if_neg (by decide)]

/-- Settles O34: the pixels and `VF` of a completed draw, and the one cause for it to fault. -/
theorem drwXorsSprite : Obligations.DrwXorsSprite := by
  intro x y n s
  constructor
  · intro hfits
    have hrange : n.toNat = 0 ∨ s.i.toNat + n.toNat - 1 ≤ 0xFFF := hfits.imp_left (fun h0 => by rw [h0]; rfl)
    obtain ⟨t, hexec⟩ := exec_completes (s := s) (i := .drw x y n) (dataFault_eq_none (by omega))
    exact ⟨t, hexec, fun px hpx py hpy => exec_drw_pixel hexec hpx hpy, exec_drw_vf_of_collides hexec,
      exec_drw_vf_of_not_collides hexec, exec_keeps hexec (p := .i) (by simp [changedParts]), exec_pc hexec⟩
  · intro hn habove
    have hpos : n.toNat ≠ 0 := fun h0 => hn (BitVec.eq_of_toNat_eq h0)
    exact exec_fault (dataFault_eq_some (by omega) (by omega))

/-! ## The same draw again -/

/-- A sprite lands alike in two states with the same `I`, memory and coordinate registers. -/
theorem spriteBit_congr (hi : t.i = s.i) (hmem : ∀ a, t.byte a = s.byte a) (hx : t.reg x = s.reg x)
    (hy : t.reg y = s.reg y) (n px py : Nat) : spriteBit t x y n px py = spriteBit s x y n px py := by
  have hcx : coordinate t x = coordinate s x := by rw [coordinate, hx, coordinate]
  have hcy : coordinate t y = coordinate s y := by rw [coordinate, hy, coordinate]
  rw [spriteBit, spriteBit, hcx, hcy, hi]
  simp only [hmem]

theorem flagByte_eq_one_iff {c : Bool} : flagByte c = 1#8 ↔ c = true := by cases c <;> decide

/-- Settles O35: the second draw inverts the same pixels, and finds on under the sprite those that were off. -/
theorem drawingTwiceRestoresFramebuffer : Obligations.DrawingTwiceRestoresFramebuffer := by
  intro x y n s t hx hy h
  have hi : t.i = s.i := exec_keeps h (p := .i) (by simp [changedParts])
  have hmem : ∀ a, t.byte a = s.byte a := exec_keeps h (p := .mem) (by simp [changedParts])
  have hsprite := spriteBit_congr hi hmem (exec_drw_keepsRegsBut h x hx) (exec_drw_keepsRegsBut h y hy) n.toNat
  have hcause : executeFault t (.drw x y n) = none := (dataFault_congr hi).trans (executeFault_of_next h)
  obtain ⟨u, hu⟩ := exec_completes hcause
  refine ⟨u, hu, fun p hp => ?_, ?_⟩
  · have hpx : p % 64 < 64 := Nat.mod_lt _ (by decide)
    have hpy : p / 64 < 32 := by omega
    have hp : p / 64 * 64 + p % 64 = p := by omega
    have hsecond := exec_drw_pixel hu hpx hpy
    rw [exec_drw_pixel h hpx hpy, hsprite, Bool.xor_assoc, Bool.xor_self, Bool.xor_false, hp] at hsecond
    exact hsecond
  · obtain ⟨c, hvf, hiff⟩ := exec_drw_vf hu
    rw [hvf, flagByte_eq_one_iff, hiff, Collides]
    refine exists_congr fun px => and_congr_right fun hpx => exists_congr fun py => and_congr_right fun hpy => ?_
    rw [exec_drw_pixel h hpx hpy, hsprite]
    cases s.pixel (py * 64 + px) <;> cases spriteBit s x y n.toNat px py <;> decide

end Sys2Proof.Machine
end

section
/-! The key events (60_exceptions R150), and `Reset` with and without overrides (70_reset R160 to R162). -/

namespace Sys2Proof.Machine

open Sys2Proof.Claims

variable {s : State} {o : ResetOptions}

/-! ## Key events -/

/-- Two keypads with the same sixteen keys are one. -/
theorem keys_ext {a b : BitVec 16} (h : ∀ j : Key, a.getLsbD j.val = b.getLsbD j.val) : a = b :=
  BitVec.eq_of_getLsbD_eq fun k hk => h ⟨k, hk⟩

theorem State.setKeys_of_eq {ks : BitVec 16} (h : ks = s.keys) : s.setKeys ks = s := by
  subst h
  rfl

/-- Pressing a held key changes nothing. -/
theorem keyDown_of_held {k : Key} (h : s.keys.getLsbD k.val = true) : keyDown k s = s := by
  refine State.setKeys_of_eq (keys_ext fun j => (keyDown_keys s k j).trans ?_)
  by_cases hj : j = k
  · rw [hj, h, Bool.or_true]
  · rw [decide_eq_false hj, Bool.false_or]

/-- Releasing a free key changes nothing. -/
theorem keyUp_of_free {k : Key} (h : s.keys.getLsbD k.val = false) : keyUp k s = s := by
  refine State.setKeys_of_eq (keys_ext fun j => (keyUp_keys s k j).trans ?_)
  by_cases hj : j = k
  · rw [hj, h, Bool.and_false]
  · rw [decide_eq_false hj, Bool.not_false, Bool.true_and]

/-- Settles O42: each event writes the keypad alone, bit by bit as stated. -/
theorem keyEventsSetOneKey : Obligations.KeyEventsSetOneKey :=
  fun k s => ⟨⟨_, rfl, s.setKeys_keepsAllBut_keys _, keyDown_keys s k, keyDown_of_held⟩,
    ⟨_, rfl, s.setKeys_keepsAllBut_keys _, keyUp_keys s k, keyUp_of_free⟩⟩

/-! ## Reset -/

theorem hostEvent_reset_of_legal (h : resetOptionsLegal o s = true) :
    hostEvent (.reset o) s = .next (writeFont (overridden o s)) := by
  rcases resetWith_cases s o with ⟨_, hnext⟩ | ⟨hillegal, _⟩
  · exact hnext
  · exact absurd (h.symm.trans hillegal) Bool.noConfusion

theorem hostEvent_reset_of_illegal (h : resetOptionsLegal o s ≠ true) :
    hostEvent (.reset o) s = .refused .resetOptionOutOfRange := by
  rcases resetWith_cases s o with ⟨hlegal, _⟩ | ⟨_, hrefused⟩
  · exact absurd hlegal h
  · exact hrefused

theorem State.reset_reg (r : Reg) : State.reset.reg r = 0x00#8 := by simp [State.reg, State.reset]

theorem resetFields_reg (o : ResetOptions) (s : State) (r : Reg) :
    (resetFields o s).reg r = (o.v[r]).getD 0x00#8 := by
  have hfield : (resetFields o s).reg r = (o.v[r]).getD (State.reset.reg r) := by simp [State.reg, resetFields]
  rw [hfield, State.reset_reg]

/-- Before any override a byte reads as the reset contents. -/
theorem resetFields_byte (o : ResetOptions) (s : State) (a : Nat) :
    (resetFields o s).byte a = unlisted s.params.font a := rfl

theorem unlisted_above_font {font : Vector Byte 80} {a : Nat} (h : 80 ≤ a) : unlisted font a = 0x00#8 :=
  dif_neg (by omega)

theorem unlisted_font {font : Vector Byte 80} {a : Nat} (h : a < 80) : unlisted font a = font[a] := dif_pos h

/-- Above the font region a byte is its last override, or 0 (70_reset R160). -/
theorem reset_byte_above_font (o : ResetOptions) (s : State) {a : Nat} (h : 80 ≤ a) :
    (writeFont (overridden o s)).byte a = ((o.mem.reverse.find? (fun c => c.1 == a)).map Prod.snd).getD 0x00#8 := by
  rw [writeFont_byte, dif_neg (by omega), overridden, setCells_byte, resetFields_byte, unlisted_above_font h]

/-- The two writes to memory that follow `resetFields` reach no other field. -/
theorem writeFont_overridden_eq (o : ResetOptions) (s : State) :
    writeFont (overridden o s) = { resetFields o s with mem := (writeFont (overridden o s)).mem } :=
  calc writeFont (overridden o s)
      = { overridden o s with mem := (writeFont (overridden o s)).mem } := State.setBytes_eq _ 0 _
    _ = _ := congrArg (fun t : State => { t with mem := (writeFont (overridden o s)).mem }) (setCells_eq _ o.mem)

theorem resetFields_pixel_blank (h : o.fb = none) (p : Nat) : (resetFields o s).pixel p = false := by
  have hfb : (resetFields o s).fb = Vector.replicate 32 0#64 := by simp [resetFields, h, State.reset]
  rw [State.pixel, hfb, Framebuffer.pixel_blank]

/-- Settles O46: each field is set by `resetFields`, and the writes to memory that follow reach no other; what the
legality check refuses is what the statement lists. -/
theorem resetAppliesOverrides : Obligations.ResetAppliesOverrides := by
  intro o s
  constructor
  · intro hstack hmem
    have hnext := hostEvent_reset_of_legal ((resetOptionsLegal_iff s o).2 ⟨hstack, hmem⟩)
    have heq := writeFont_overridden_eq o s
    have hfb : (writeFont (overridden o s)).fb = (resetFields o s).fb := by rw [heq]
    refine ⟨_, hnext, fun r => (congrArg (State.reg · r) heq).trans (resetFields_reg o s r), congrArg State.pc heq,
      congrArg State.i heq, congrArg State.stack heq, congrArg State.dt heq, congrArg State.st heq,
      congrArg State.keys heq, fun fb h => hfb.trans ?_, fun h p => ?_,
      fun a ha _ => reset_byte_above_font o s ha⟩
    · rw [resetFields, h, Option.getD_some]
    · rw [State.pixel_eq_of_fb_eq hfb, resetFields_pixel_blank h]

  · intro hrange
    apply hostEvent_reset_of_illegal
    rw [ne_eq, resetOptionsLegal_iff]
    rintro ⟨hstack, hmem⟩
    rcases hrange with ⟨d, es, hd, hes, hlt⟩ | ⟨c, hc, hlt⟩
    · exact absurd (hstack d es hd hes) (not_le.2 hlt)
    · exact absurd (hmem c hc) (not_le.2 hlt)

/-- Where the font region already reads as the font, writing it changes nothing, not even the list of cells: canonical
memories that read alike are equal. -/
theorem writeFont_of_font (hs : s.memOk) (h : ∀ (j : Nat) (hj : j < 80), s.byte j = s.params.font[j]) :
    writeFont s = s := by
  have hwf : Memory.wf s.params.font (writeFont s).mem := by
    have hset := State.memOk_setBytes (base := 0) (bs := s.params.font.toList) hs (by rw [Vector.length_toList]; decide)
    rwa [State.setBytes_params] at hset
  have hmem : (writeFont s).mem = s.mem := Memory.eq_of_read_eq _ hwf hs fun a => by
    have hbyte : (writeFont s).byte a = s.byte a := by
      rw [writeFont_byte]
      split_ifs with ha
      · exact (h a ha).symm
      · rfl
    rwa [State.byte, writeFont_params] at hbyte
  calc writeFont s = { s with mem := (writeFont s).mem } := State.setBytes_eq s 0 _
    _ = s := by rw [hmem]

/-- The state `Reset` with no options leaves: that of `State.reset`, on this machine (log rows 1 and 8). -/
def resetOf (s : State) : State := { State.reset with params := s.params, draws := s.draws, beeps := s.beeps }

theorem resetOf_reg (s : State) (r : Reg) : (resetOf s).reg r = 0x00#8 := State.reset_reg r

theorem overridden_default (s : State) : overridden {} s = resetOf s := by
  have hv : (resetFields {} s).v = (resetOf s).v :=
    State.v_eq_of_reg fun r => (resetFields_reg {} s r).trans (by simp [resetOf_reg])
  calc overridden {} s = { resetOf s with v := (resetFields {} s).v } := rfl
    _ = resetOf s := by rw [hv]

theorem resetOf_byte (s : State) (a : Nat) : (resetOf s).byte a = unlisted s.params.font a := rfl

theorem hostEvent_reset_default (s : State) : hostEvent (.reset {}) s = .next (resetOf s) := by
  have hlegal : resetOptionsLegal {} s = true := (resetOptionsLegal_iff s {}).2 ⟨by simp, by simp⟩
  rw [hostEvent_reset_of_legal hlegal, overridden_default,
    writeFont_of_font (Memory.wf_nil _) fun j hj => (resetOf_byte s j).trans (unlisted_font hj)]

/-- Settles O45: with no overrides the font write finds the font in place, and what is left is `State.reset`. -/
theorem resetGivesDefaults : Obligations.ResetGivesDefaults := by
  intro s
  refine ⟨⟨resetOf s, hostEvent_reset_default s, resetOf_reg s, rfl, rfl, rfl, rfl, rfl, fun j hj => ?_,
    fun a ha _ => ?_, fun p => Framebuffer.pixel_blank _ _, fun k => ?_, rfl, rfl, rfl⟩, hostEvent_reset_default s⟩
  · rw [resetOf_byte, unlisted_font hj]
  · rw [resetOf_byte, unlisted_above_font ha]
  · exact BitVec.getLsbD_zero

end Sys2Proof.Machine
end
